-- ==== Sys2Proof/Word.lean ====
section
/-! DEFINITION. The machine's word types (00_scope.md R6, R10): bytes, instruction words, nibbles, register indices. -/

namespace Sys2Proof

/-- `Bits8`: a register, a memory cell, the program counter, an address (R6, R10). -/
abbrev Byte := BitVec 8

/-- `Bits16`: an instruction word, bit 0 the least significant (R9, R10). -/
abbrev Word := BitVec 16

/-- `Bits4` as the spec uses it for a shift count or a raw comparison selector (R10, 30_encoding.md R77). -/
abbrev Nibble := BitVec 4

/-- `Bits4` naming a register: an index 0..15 (10_state.md R31; 93_implementation_defined.md K1.2 types it so). -/
abbrev RegIdx := Fin 16

/-- The number of the register that a 4-bit field of a word names (30_encoding.md R80: read as it stands). -/
def RegIdx.ofNibble (n : Nibble) : RegIdx := n.toFin

/-- The 4-bit field that names a register (30_encoding.md R84). -/
def RegIdx.toNibble (r : RegIdx) : Nibble := BitVec.ofFin r

end Sys2Proof
end

