-- ==== Sys2Proof/Config.lean ====
section
/-! DEFINITION. The named parameters of 00_scope.md R7 that are fixed for a machine. Every listed value is modelled;
the defaults are the spec's (D4, D5, D9, D12). The two other parameters of R7, `initial_image` and `fuel`, are arguments:
see Machine/Image.lean and Machine/Run.lean. -/

namespace Sys2Proof

/-- `SHIFT_GE8`: what BitwiseRotate does with an amount of 8..15 (41_alu.md R129; log 2). -/
inductive ShiftGE8 where
  | zero
  | modWidth
  | fault
deriving DecidableEq, Repr

/-- `PC_ADVANCE_OVERFLOW`: what the advance from 0xFE does (42_control.md R150; log 3). -/
inductive PcAdvanceOverflow where
  | fault
  | wrap
deriving DecidableEq, Repr

/-- The parameters of R7, each with the spec's default. -/
structure Config where
  shiftGE8 : ShiftGE8 := .zero
  pcAdvanceOverflow : PcAdvanceOverflow := .fault
  /-- `HALT_CONSUMES_FUEL` (44_execution_cycle.md R190; log 4). -/
  haltConsumesFuel : Bool := true
  /-- `UNNAMED_CELL_VALUE` (10_state.md R45; log 5): read once, when the image is built. -/
  unnamedCellValue : Byte := 0x00#8
deriving DecidableEq, Repr

/-- Every parameter at the default of R7. -/
def Config.spec : Config := {}

end Sys2Proof
end

