-- ==== Sys2Proof/Syntax.lean ====
section
/-! DEFINITION. The Operation type of 30_encoding.md R77, one constructor per row of spec/opcode_table.json, and the
comparison predicates of R86. Fields are in the payload order of R77. -/

namespace Sys2Proof

/-- The Operation: a closed tagged union of 18 variants, each with exactly the payload of R77. -/
inductive Instr where
  | noOp
  | loadMemory (r : RegIdx) (addr : Byte)
  | loadValue (r : RegIdx) (imm : Byte)
  | storeMemory (r : RegIdx) (addr : Byte)
  | moveRegister (r s : RegIdx)
  | addInteger (r s t : RegIdx)
  | addFloat (r s t : RegIdx)
  | bitwiseOr (r s t : RegIdx)
  | bitwiseAnd (r s t : RegIdx)
  | bitwiseXor (r s t : RegIdx)
  | bitwiseRotate (r : RegIdx) (amount : Nibble)
  | jump (addr : Byte)
  | jumpIfEq (r : RegIdx) (addr : Byte)
  | halt
  | loadIndirect (r s : RegIdx)
  | storeIndirect (r s : RegIdx)
  | jumpIndirect (t : RegIdx)
  | jumpWithTest (r : RegIdx) (x : Nibble) (t : RegIdx)
deriving DecidableEq, Repr

/-- The Comparison Predicate that a selector of JumpWithTest names (R86). -/
inductive Predicate where
  | equal
  | notEqual
  | greaterOrEqual
  | lessOrEqual
  | greater
  | less
  | never
deriving DecidableEq, Repr

/-- What the decoder answers (30_encoding.md R78): an Operation, or one of the two named rejections. -/
inductive DecodeResult where
  | op (i : Instr)
  | nullInstruction
  | invalidInstruction (w : Word)
deriving DecidableEq, Repr

end Sys2Proof
end

