-- ==== Sys2Proof/Machine/State.lean ====
section
/-! DEFINITION. The context of 10_state.md R30 as plain data, the fatal error kinds of 60_exceptions.md R200, the reasons a
step of the model stops, and reset (R45). -/

namespace Sys2Proof.Machine

/-- The fatal error kinds, each with what it records (60_exceptions.md R200). -/
inductive FaultKind where
  | nullInstruction
  | invalidInstruction (w : Word)
  | fetchOutOfRange (a : Byte)
  | pcOverflow (a : Byte)
  | shiftOutOfRange (n : Nibble)
deriving DecidableEq, Repr

/-- The sequencer's three states (44_execution_cycle.md R180), `faulted` with the recorded error. -/
inductive SeqState where
  | running
  | halted
  | faulted (k : FaultKind)
deriving DecidableEq, Repr

/-- Why a step of the model stops. A fatal error of the spec is NOT one of these: it is a next state with the `fault`
latch set (R185, D8; log 10). These two say that no step exists from the state (R180, R191; log 11). -/
inductive Fault where
  /-- Raised by `step` on a Halted context: the spec takes no step there (R180, R191, R213). Safe: the model stops where
  the machine does nothing. -/
  | halted
  /-- Raised by `step` on a Faulted context, with the latched error: the spec takes no step there (R41, R180, R191). Safe:
  the model stops where the machine does nothing. -/
  | faulted (k : FaultKind)
deriving DecidableEq, Repr

/-- Why an instruction has no meaning. -/
inductive Refusal where
  /-- Raised by an arm of `exec` for an instruction with no meaning yet. Safe: nothing is claimed of it. No arm of this
  model raises it. -/
  | notModelled (mnemonic : String)
deriving DecidableEq, Repr

/-- The 256 cells (10_state.md R42) as (address, byte) pairs in one canonical form: see `Memory.wf` and `Memory.read` in
Machine/Ops.lean. -/
abbrev Memory := List Host.Cell

/-- The context of R30, and the parameters of 00_scope.md R7 (log 1). -/
structure State where
  /-- The program counter (R35). -/
  pc : Byte
  /-- The register file x[0..15] (R31). -/
  regs : Vector Byte 16
  /-- The 256-byte memory that code and data share (R42). -/
  memory : Memory
  /-- Execution is active (R40). -/
  running : Bool
  /-- The fatal error that ended the run, if one did (R41). -/
  fault : Option FaultKind
  /-- The model's own field: the parameters of R7. No step changes it (log 1). -/
  config : Config
deriving DecidableEq, Repr

/-- Reset under parameters `c` with an initial image `m` (R45, 70_reset_and_hazards.md R220). -/
def State.resetWith (c : Config) (m : Memory) : State where
  pc := 0x00#8
  regs := Vector.replicate 16 0x00#8
  memory := m
  running := true
  fault := none
  config := c

/-- The machine right after reset: the parameters at the defaults of R7 and an image that names no cell (R45). -/
def State.reset : State := State.resetWith Config.spec []

/-- The outcome of a step or of one instruction. -/
abbrev Result := Host.Outcome State Fault Refusal

end Sys2Proof.Machine
end

