-- ==== Sys2Proof/Machine/Ops.lean ====
section
/-! DEFINITION. The named operations over memory, registers and the program counter (00_scope.md R11), the sequencer's
state (44_execution_cycle.md R180), and taking a fatal error (R185, 60_exceptions.md R208). There is no return from one
beside it: the core has none (60_exceptions.md R209). -/

namespace Sys2Proof.Machine

/-- What an address that no entry lists reads as: the default `UNNAMED_CELL_VALUE` (D12; log 5). -/
def unlistedByte : Byte := 0x00#8

/-- The byte that the list `m` holds for address `a`. -/
def Memory.lookup (m : Memory) (a : Nat) : Byte :=
  match m with
  | [] => unlistedByte
  | (b, v) :: rest => if b = a then v else Memory.lookup rest a

/-- `MemRead(a, 1)` (00_scope.md R11, 20_memory.md R51). -/
def Memory.read (m : Memory) (a : Byte) : Byte := Memory.lookup m a.toNat

/-- The entry for `a`, or nothing where `v` is what an unlisted address reads as. -/
def Memory.entry (a : Nat) (v : Byte) : Memory := if v = unlistedByte then [] else [(a, v)]

/-- The list `m` with address `a` holding `v`, in canonical form where `m` is. -/
def Memory.insert (m : Memory) (a : Nat) (v : Byte) : Memory :=
  match m with
  | [] => Memory.entry a v
  | (b, u) :: rest =>
    if a < b then Memory.entry a v ++ (b, u) :: rest
    else if a = b then Memory.entry a v ++ rest
    else (b, u) :: Memory.insert rest a v

/-- `MemWrite(a, 1, v)` (00_scope.md R11, 20_memory.md R51). -/
def Memory.write (m : Memory) (a v : Byte) : Memory := Memory.insert m a.toNat v

/-- The canonical form: addresses strictly rising and inside the 256-byte space of 20_memory.md R50, and no entry equal to
what an unlisted address reads as (log 5). -/
def Memory.wf (m : Memory) : Bool :=
  match m with
  | [] => true
  | (a, v) :: rest =>
    decide (a < 256) && decide (v ≠ unlistedByte)
      && (match rest with | [] => true | (b, _) :: _ => decide (a < b)) && Memory.wf rest

/-- `x[i]` (10_state.md R31). -/
def State.reg (s : State) (i : RegIdx) : Byte := s.regs[i.val]

/-- `x[i] <- v` (10_state.md R31); no register is hard-wired (R32). -/
def State.setReg (s : State) (i : RegIdx) (v : Byte) : State := { s with regs := s.regs.set i.val v }

/-- The byte of memory at `a`; a read has no side effect (20_memory.md R59). -/
def State.load (s : State) (a : Byte) : Byte := Memory.read s.memory a

/-- The state with the byte of memory at `a` holding `v`. -/
def State.store (s : State) (a v : Byte) : State := { s with memory := Memory.write s.memory a v }

/-- `pc <- target` (00_scope.md R11). -/
def State.setPc (s : State) (target : Byte) : State := { s with pc := target }

/-- `running <- false` (00_scope.md R11, 43_system.md R171). -/
def State.stop (s : State) : State := { s with running := false }

/-- Taking the fatal error `k` at the instruction whose address is `a`: the latch is set, the pc is `a`, nothing else
changes (44_execution_cycle.md R181 `fail`, R185; 60_exceptions.md R208). -/
def State.fail (s : State) (a : Byte) (k : FaultKind) : State := { s with pc := a, fault := some k }

/-- The address A of the executing instruction, from the pc that the step has advanced by 2 (44_execution_cycle.md R184;
also when the advance wrapped, 42_control.md R150). DEDUCED: log 12. -/
def State.instrAddr (s : State) : Byte := s.pc - 2#8

/-- Running, Halted or Faulted, as a function of `running` and `fault` (44_execution_cycle.md R180), `running` read first
as the loop of R189 does. -/
def State.seq (s : State) : SeqState :=
  if s.running = false then .halted
  else match s.fault with
    | none => .running
    | some k => .faulted k

/-- The numeric code of a fatal error (60_exceptions.md R200, D16). -/
def FaultKind.code : FaultKind → Nat
  | .nullInstruction => 1
  | .invalidInstruction _ => 2
  | .fetchOutOfRange _ => 3
  | .pcOverflow _ => 4
  | .shiftOutOfRange _ => 5

end Sys2Proof.Machine
end

