-- ==== Sys2Proof/Machine/Operands.lean ====
section
/-! DEFINITION. The operand forms of 40_data_movement.md: register, immediate, direct and indirect. Neither addressing mode
changes a base register or adds an offset. -/

namespace Sys2Proof.Machine

/-- The effective address of direct addressing: the instruction's `addr`, used unchanged (40_data_movement.md, R80). -/
def directAddr (addr : Byte) : Byte := addr

/-- The effective address of indirect addressing: the value of register `s` (40_data_movement.md R102, R104). -/
def indirectAddr (st : State) (s : RegIdx) : Byte := st.reg s

/-- An immediate: the raw byte, with no extension (40_data_movement.md R101, 30_encoding.md R80). -/
def immediate (imm : Byte) : Byte := imm

/-- The target of a direct jump: absolute and unchanged (42_control.md R153, R157). -/
def directTarget (addr : Byte) : Byte := addr

/-- The target of an indirect jump: the value of register `t` (42_control.md R155, R156). -/
def indirectTarget (st : State) (t : RegIdx) : Byte := st.reg t

end Sys2Proof.Machine
end

