-- ==== Sys2Proof/Machine/Alu.lean ====
section
/-! DEFINITION. The ALU of 41_alu.md: integer add, compact float add, bitwise logic, logical shift, and the meanings of the
six instructions that use it. No flag exists (10_state.md R38). -/

namespace Sys2Proof.Machine

/-- `add_int(a, b) = u8(s8(a) + s8(b))` (R121). -/
def addInt (a b : Byte) : Byte := BitVec.ofInt 8 (a.toInt + b.toInt)

/-- `sign = v[7]` of a compact float (R122). -/
def floatSign (v : Byte) : Bool := v.getLsbD 7

/-- `exponent = v[6:4]`, unbiased (R122). -/
def floatExponent (v : Byte) : Nat := (v.extractLsb' 4 3).toNat

/-- `mantissa = v[3:0]`, an unsigned integer (R122). -/
def floatMantissa (v : Byte) : Nat := (v.extractLsb' 0 4).toNat

/-- `fdec(v) = (1 - 2*sign) * mantissa * 2^exponent` (R122). -/
def fdec (v : Byte) : Int :=
  (if floatSign v then -1 else 1) * ((floatMantissa v * 2 ^ floatExponent v : Nat) : Int)

/-- The search of R123: the largest shift `e`, from the given one down to 0, with bit 3 of `mag >> e` set; 0 where there is
none (stored as it is, unnormalised). -/
def floatExcess (mag : Nat) : Nat → Nat
  | 0 => 0
  | e + 1 => if (mag >>> (e + 1)).testBit 3 then e + 1 else floatExcess mag e

/-- The byte `sign<<7 | exponent<<4 | mantissa` (R123). -/
def floatPack (sign : Bool) (exponent mantissa : Nat) : Byte :=
  BitVec.ofBool sign ++ BitVec.ofNat 3 exponent ++ BitVec.ofNat 4 mantissa

/-- Renormalisation of an exact sum (R123): zero gives 0x00, an excess above 7 saturates, low-order bits are truncated. -/
def floatNormalise (total : Int) : Byte :=
  if total = 0 then 0x00#8
  else
    let sign : Bool := decide (total < 0)
    let mag : Nat := total.natAbs
    let excess : Nat := floatExcess mag 8
    if excess > 7 then floatPack sign 7 0xF
    else floatPack sign excess ((mag >>> excess) % 16)

/-- `add_float(a, b)` (R123). -/
def addFloat (a b : Byte) : Byte := floatNormalise (fdec a + fdec b)

/-- `shr(a, n)` (R128, R129): a logical right shift; from 8 up as `SHIFT_GE8` says (log 2). -/
def shr (mode : ShiftGE8) (a : Byte) (n : Nibble) : Except FaultKind Byte :=
  if n.toNat < 8 then .ok (a >>> n.toNat)
  else match mode with
    | .zero => .ok 0x00#8
    | .modWidth => .ok (a >>> (n.toNat % 8))
    | .fault => .error (.shiftOutOfRange n)

/-- R121: `x[r] <- add_int(x[t], x[s])`. -/
def execAddInteger (r a b : RegIdx) (s : State) : Result :=
  .next (s.setReg r (addInt (s.reg b) (s.reg a)))

/-- R124: `x[r] <- add_float(x[s], x[t])`. -/
def execAddFloat (r a b : RegIdx) (s : State) : Result :=
  .next (s.setReg r (addFloat (s.reg a) (s.reg b)))

/-- R125: `x[r] <- x[t] | x[s]`. -/
def execBitwiseOr (r a b : RegIdx) (s : State) : Result :=
  .next (s.setReg r (s.reg b ||| s.reg a))

/-- R126: `x[r] <- x[t] & x[s]`. -/
def execBitwiseAnd (r a b : RegIdx) (s : State) : Result :=
  .next (s.setReg r (s.reg b &&& s.reg a))

/-- R127: `x[r] <- x[t] ^ x[s]`. -/
def execBitwiseXor (r a b : RegIdx) (s : State) : Result :=
  .next (s.setReg r (s.reg b ^^^ s.reg a))

/-- R130: `x[r] <- shr(x[r], amount)`; where the shifter raises ShiftOutOfRange, that fatal error is taken before the
register is written (R129, R205). -/
def execBitwiseRotate (r : RegIdx) (amount : Nibble) (s : State) : Result :=
  match shr s.config.shiftGE8 (s.reg r) amount with
  | .ok v => .next (s.setReg r v)
  | .error k => .next (s.fail s.instrAddr k)

end Sys2Proof.Machine
end

