-- ==== Sys2Proof/Machine/Flags.lean ====
section
/-! DEFINITION. The core has no status flags (10_state.md R38): its conditions are the comparison unit's, computed from
register values where a jump needs them (42_control.md R151). -/

namespace Sys2Proof.Machine

/-- The predicate that a raw selector names: codes 0 to 5 in the list's order, every other code Never (30_encoding.md R86,
D2; log 6). -/
def selectorPredicate (x : Nibble) : Predicate :=
  match x.toNat with
  | 0 => .equal
  | 1 => .notEqual
  | 2 => .greaterOrEqual
  | 3 => .lessOrEqual
  | 4 => .greater
  | 5 => .less
  | _ => .never

/-- The predicate on two bytes, compared as unsigned numbers, `a` on the left (42_control.md R151, D3; log 7). -/
def comparePredicate (p : Predicate) (a b : Byte) : Bool :=
  match p with
  | .equal => decide (a.toNat = b.toNat)
  | .notEqual => decide (a.toNat ≠ b.toNat)
  | .greaterOrEqual => decide (a.toNat ≥ b.toNat)
  | .lessOrEqual => decide (a.toNat ≤ b.toNat)
  | .greater => decide (a.toNat > b.toNat)
  | .less => decide (a.toNat < b.toNat)
  | .never => false

/-- `test(x, a, b)` (42_control.md R151). -/
def compareTest (x : Nibble) (a b : Byte) : Bool := comparePredicate (selectorPredicate x) a b

end Sys2Proof.Machine
end

