-- ==== Sys2Proof/Machine/Control.lean ====
section
/-! DEFINITION. The next-PC multiplexer and the four jumps of 42_control.md. No jump writes a register, memory or `running`,
and none raises an error: a target of 0xFF fails at the next fetch. -/

namespace Sys2Proof.Machine

/-- `pc_next(seq, taken, target)` (R152). -/
def pcNext (seq : Byte) (taken : Bool) (target : Byte) : Byte := if taken then target else seq

/-- The state after a jump: the advanced pc is overwritten where the jump is taken (R152, R36). -/
def State.jumpIf (s : State) (taken : Bool) (target : Byte) : State := s.setPc (pcNext s.pc taken target)

/-- R153: `pc <- addr`. -/
def execJump (addr : Byte) (s : State) : Result :=
  .next (s.jumpIf true (directTarget addr))

/-- R154: `if x[r] == x[0] then pc <- addr`. -/
def execJumpIfEq (r : RegIdx) (addr : Byte) (s : State) : Result :=
  .next (s.jumpIf (s.reg r == s.reg 0) (directTarget addr))

/-- R155: `pc <- x[t]`. -/
def execJumpIndirect (t : RegIdx) (s : State) : Result :=
  .next (s.jumpIf true (indirectTarget s t))

/-- R156: `if test(x, x[r], x[0]) then pc <- x[t]`. -/
def execJumpWithTest (r : RegIdx) (x : Nibble) (t : RegIdx) (s : State) : Result :=
  .next (s.jumpIf (compareTest x (s.reg r) (s.reg 0)) (indirectTarget s t))

end Sys2Proof.Machine
end

