-- ==== Sys2Proof/Machine/DataMovement.lean ====
section
/-! DEFINITION. The meanings of 40_data_movement.md, on the state whose pc the step has advanced (44_execution_cycle.md
R184). None changes `pc` or `running`, and none raises an error. -/

namespace Sys2Proof.Machine

/-- R100: `x[r] <- MemRead(addr, 1)`. -/
def execLoadMemory (r : RegIdx) (addr : Byte) (s : State) : Result :=
  .next (s.setReg r (s.load (directAddr addr)))

/-- R101: `x[r] <- imm`. -/
def execLoadValue (r : RegIdx) (imm : Byte) (s : State) : Result :=
  .next (s.setReg r (immediate imm))

/-- R102: `a <- x[s]`, then `x[r] <- MemRead(a, 1)`; `r = s` reads the address first. -/
def execLoadIndirect (r a : RegIdx) (s : State) : Result :=
  .next (s.setReg r (s.load (indirectAddr s a)))

/-- R103: `MemWrite(addr, 1, x[r])`. -/
def execStoreMemory (r : RegIdx) (addr : Byte) (s : State) : Result :=
  .next (s.store (directAddr addr) (s.reg r))

/-- R104: `MemWrite(x[s], 1, x[r])`. -/
def execStoreIndirect (r a : RegIdx) (s : State) : Result :=
  .next (s.store (indirectAddr s a) (s.reg r))

/-- R105: `x[s] <- x[r]`, source first and destination second. -/
def execMoveRegister (src dst : RegIdx) (s : State) : Result :=
  .next (s.setReg dst (s.reg src))

end Sys2Proof.Machine
end

