-- ==== Sys2Proof/Machine/System.lean ====
section
/-! DEFINITION. The system instructions of 43_system.md. -/

namespace Sys2Proof.Machine

/-- R170: nothing beyond the step's advance. -/
def execNoOp (s : State) : Result := .next s

/-- R171: `running <- false`. The halt signal is read off the next state (`outcomeOf` in Machine/Sequencer.lean; log 15). -/
def execHalt (s : State) : Result := .next s.stop

end Sys2Proof.Machine
end

