-- ==== Sys2Proof/Machine/Dispatch.lean ====
section
/-! DEFINITION. The opcode dispatch multiplexer (44_execution_cycle.md R186): one handler per variant, no default arm. -/

namespace Sys2Proof.Machine

def exec (i : Instr) (s : State) : Host.Outcome State Fault Refusal :=
  match i with
  | .noOp => Sys2Proof.Machine.execNoOp s
  | .loadMemory r addr => Sys2Proof.Machine.execLoadMemory r addr s
  | .loadValue r imm => Sys2Proof.Machine.execLoadValue r imm s
  | .storeMemory r addr => Sys2Proof.Machine.execStoreMemory r addr s
  | .moveRegister r d => Sys2Proof.Machine.execMoveRegister r d s
  | .addInteger r a b => Sys2Proof.Machine.execAddInteger r a b s
  | .addFloat r a b => Sys2Proof.Machine.execAddFloat r a b s
  | .bitwiseOr r a b => Sys2Proof.Machine.execBitwiseOr r a b s
  | .bitwiseAnd r a b => Sys2Proof.Machine.execBitwiseAnd r a b s
  | .bitwiseXor r a b => Sys2Proof.Machine.execBitwiseXor r a b s
  | .bitwiseRotate r amount => Sys2Proof.Machine.execBitwiseRotate r amount s
  | .jump addr => Sys2Proof.Machine.execJump addr s
  | .jumpIfEq r addr => Sys2Proof.Machine.execJumpIfEq r addr s
  | .halt => Sys2Proof.Machine.execHalt s
  | .loadIndirect r a => Sys2Proof.Machine.execLoadIndirect r a s
  | .storeIndirect r a => Sys2Proof.Machine.execStoreIndirect r a s
  | .jumpIndirect t => Sys2Proof.Machine.execJumpIndirect t s
  | .jumpWithTest r x t => Sys2Proof.Machine.execJumpWithTest r x t s

end Sys2Proof.Machine
end

