-- ==== Sys2Proof/WellFormed.lean ====
section
/-! DEFINITION. The two well-formedness checks of 30_encoding.md R85 (90_conflicts.md C3). Every field's range is in its
type, so these two are all; every decoded Operation passes both (R81). -/

namespace Sys2Proof

/-- JumpIfEq needs `r ≠ 0`; JumpWithTest needs `(r, x) ≠ (0, 0)` (R85). -/
def Instr.wellFormed : Instr → Bool
  | .noOp => true
  | .loadMemory _ _ => true
  | .loadValue _ _ => true
  | .storeMemory _ _ => true
  | .moveRegister _ _ => true
  | .addInteger _ _ _ => true
  | .addFloat _ _ _ => true
  | .bitwiseOr _ _ _ => true
  | .bitwiseAnd _ _ _ => true
  | .bitwiseXor _ _ _ => true
  | .bitwiseRotate _ _ => true
  | .jump _ => true
  | .jumpIfEq r _ => r != 0
  | .halt => true
  | .loadIndirect _ _ => true
  | .storeIndirect _ _ => true
  | .jumpIndirect _ => true
  | .jumpWithTest r x _ => !(r == 0 && x == 0#4)

end Sys2Proof
end

