-- ==== Sys2Proof/Decode.lean ====
section
/-! DEFINITION. The decoder and the reference encoder of 30_encoding.md: the ordered pattern/mask table (R74, R75), decode
(R78), encode (R84), and the two bytes of a word as memory holds them (20_memory.md R53). -/

namespace Sys2Proof

/-- The word whose high byte is `hi` and whose low byte is `lo` (20_memory.md R53: big-endian). -/
def wordOfBytes (hi lo : Byte) : Word := hi ++ lo

/-- `word[15:8]`, the byte stored at the lower address (R53). -/
def hiByte (w : Word) : Byte := w.extractLsb' 8 8

/-- `word[7:0]`, the byte stored at the higher address (R53). -/
def loByte (w : Word) : Byte := w.extractLsb' 0 8

/-- The register named by the 4 bits of `w` from bit `off` up (R73, R80). -/
def regField (w : Word) (off : Nat) : RegIdx := RegIdx.ofNibble (w.extractLsb' off 4)

/-- The 4 bits of `w` from bit `off` up, raw: `x` and `amount` (R73, R80). -/
def nibbleField (w : Word) (off : Nat) : Nibble := w.extractLsb' off 4

/-- `word[7:0]`: `addr` and `imm`, unsigned and unchanged (R73, R80). -/
def byteField (w : Word) : Byte := w.extractLsb' 0 8

/-- One entry of the decode table: a pattern, a mask and a field builder (R74). -/
structure Entry where
  pattern : Word
  mask : Word
  build : Word → Instr

/-- A word matches an entry when `(w & mask) == pattern` (R75). -/
def Entry.covers (e : Entry) (w : Word) : Bool := (w &&& e.mask) == e.pattern

/-- The decode table of R74, in its authoritative order. -/
def decodeTable : List Entry := [
  ⟨0x0FFF#16, 0xFFFF#16, fun _ => .noOp⟩,
  ⟨0x1000#16, 0xF000#16, fun w => .loadMemory (regField w 8) (byteField w)⟩,
  ⟨0x2000#16, 0xF000#16, fun w => .loadValue (regField w 8) (byteField w)⟩,
  ⟨0x3000#16, 0xF000#16, fun w => .storeMemory (regField w 8) (byteField w)⟩,
  ⟨0x4000#16, 0xFF00#16, fun w => .moveRegister (regField w 4) (regField w 0)⟩,
  ⟨0x5000#16, 0xF000#16, fun w => .addInteger (regField w 8) (regField w 4) (regField w 0)⟩,
  ⟨0x6000#16, 0xF000#16, fun w => .addFloat (regField w 8) (regField w 4) (regField w 0)⟩,
  ⟨0x7000#16, 0xF000#16, fun w => .bitwiseOr (regField w 8) (regField w 4) (regField w 0)⟩,
  ⟨0x8000#16, 0xF000#16, fun w => .bitwiseAnd (regField w 8) (regField w 4) (regField w 0)⟩,
  ⟨0x9000#16, 0xF000#16, fun w => .bitwiseXor (regField w 8) (regField w 4) (regField w 0)⟩,
  ⟨0xA000#16, 0xF0F0#16, fun w => .bitwiseRotate (regField w 8) (nibbleField w 0)⟩,
  ⟨0xB000#16, 0xFF00#16, fun w => .jump (byteField w)⟩,
  ⟨0xB000#16, 0xF000#16, fun w => .jumpIfEq (regField w 8) (byteField w)⟩,
  ⟨0xC000#16, 0xFFFF#16, fun _ => .halt⟩,
  ⟨0xD000#16, 0xFF00#16, fun w => .loadIndirect (regField w 4) (regField w 0)⟩,
  ⟨0xE000#16, 0xFF00#16, fun w => .storeIndirect (regField w 4) (regField w 0)⟩,
  ⟨0xF000#16, 0xFFF0#16, fun w => .jumpIndirect (regField w 0)⟩,
  ⟨0xF000#16, 0xF000#16, fun w => .jumpWithTest (regField w 8) (nibbleField w 4) (regField w 0)⟩]

/-- The decoder: the null word, else the first entry that covers the word, else an invalid word (R78). -/
def decode (w : Word) : DecodeResult :=
  if w = 0x0000#16 then .nullInstruction
  else match decodeTable.find? (fun e => e.covers w) with
    | some e => .op (e.build w)
    | none => .invalidInstruction w

/-- The decoder on the two bytes of an instruction as memory holds them, the lower address first (R70, R53). -/
def decodeBytes (hi lo : Byte) : DecodeResult := decode (wordOfBytes hi lo)

/-- A field shifted back to its place in a word (R84). -/
def place {n : Nat} (f : BitVec n) (off : Nat) : Word := f.setWidth 16 <<< off

/-- A register field shifted back to its place (R84). -/
def placeReg (r : RegIdx) (off : Nat) : Word := place r.toNibble off

/-- The encoder: the pattern of the Operation's own entry, with every field shifted to its place (R84, R74). -/
def encode : Instr → Word
  | .noOp => 0x0FFF#16
  | .loadMemory r addr => 0x1000#16 ||| placeReg r 8 ||| place addr 0
  | .loadValue r imm => 0x2000#16 ||| placeReg r 8 ||| place imm 0
  | .storeMemory r addr => 0x3000#16 ||| placeReg r 8 ||| place addr 0
  | .moveRegister r s => 0x4000#16 ||| placeReg r 4 ||| placeReg s 0
  | .addInteger r s t => 0x5000#16 ||| placeReg r 8 ||| placeReg s 4 ||| placeReg t 0
  | .addFloat r s t => 0x6000#16 ||| placeReg r 8 ||| placeReg s 4 ||| placeReg t 0
  | .bitwiseOr r s t => 0x7000#16 ||| placeReg r 8 ||| placeReg s 4 ||| placeReg t 0
  | .bitwiseAnd r s t => 0x8000#16 ||| placeReg r 8 ||| placeReg s 4 ||| placeReg t 0
  | .bitwiseXor r s t => 0x9000#16 ||| placeReg r 8 ||| placeReg s 4 ||| placeReg t 0
  | .bitwiseRotate r amount => 0xA000#16 ||| placeReg r 8 ||| place amount 0
  | .jump addr => 0xB000#16 ||| place addr 0
  | .jumpIfEq r addr => 0xB000#16 ||| placeReg r 8 ||| place addr 0
  | .halt => 0xC000#16
  | .loadIndirect r s => 0xD000#16 ||| placeReg r 4 ||| placeReg s 0
  | .storeIndirect r s => 0xE000#16 ||| placeReg r 4 ||| placeReg s 0
  | .jumpIndirect t => 0xF000#16 ||| placeReg t 0
  | .jumpWithTest r x t => 0xF000#16 ||| placeReg r 8 ||| place x 4 ||| placeReg t 0

/-- The 16-bit instruction word whose bits are the low `nbits` bits of `w`, bit 0 the least significant (R9, R70). -/
def tableWord (nbits w : Nat) : Word := BitVec.ofNat 16 (w % 2 ^ nbits)

/-- What this decoder reads from an opcode-table word, through the bytes the hardware stores it as (R53, R70). -/
def decodeTableWord (nbits w : Nat) : Option Instr :=
  match decodeBytes (hiByte (tableWord nbits w)) (loByte (tableWord nbits w)) with
  | .op i => some i
  | .nullInstruction => none
  | .invalidInstruction _ => none

end Sys2Proof
end

