-- ==== Sys2Proof/Machine/Fetch.lean ====
section
/-! DEFINITION. The stages of a step before execute: fetch, decode, advance (44_execution_cycle.md R181 to R184), each
answering the fatal error it detects. -/

namespace Sys2Proof.Machine

/-- Fetch (R182, 20_memory.md R53, R57): no byte is read at 0xFF, where the low byte would lie past the space. -/
def fetch (s : State) : Except FaultKind Word :=
  if s.pc.toNat > 0xFE then .error (.fetchOutOfRange s.pc)
  else .ok (wordOfBytes (s.load s.pc) (s.load (s.pc + 1#8)))

/-- The decode stage (R183): the decoder's two rejections are fatal errors. -/
def decodeStage (w : Word) : Except FaultKind Instr :=
  match decode w with
  | .nullInstruction => .error .nullInstruction
  | .invalidInstruction v => .error (.invalidInstruction v)
  | .op i => .ok i

/-- The PC incrementer `pc_seq(A)` (42_control.md R150; log 3), for `A` up to 0xFE, which is where fetch lets it be. -/
def pcSeq (mode : PcAdvanceOverflow) (a : Byte) : Except FaultKind Byte :=
  if a.toNat ≤ 0xFD then .ok (a + 2#8)
  else match mode with
    | .fault => .error (.pcOverflow a)
    | .wrap => .ok 0x00#8

/-- Fetch, decode and advance, in order; the first error ends the step (R181, 60_exceptions.md R207). -/
def prepare (s : State) : Except FaultKind (Instr × State) :=
  match fetch s with
  | .error k => .error k
  | .ok w =>
    match decodeStage w with
    | .error k => .error k
    | .ok i =>
      match pcSeq s.config.pcAdvanceOverflow s.pc with
      | .error k => .error k
      | .ok next => .ok (i, s.setPc next)

end Sys2Proof.Machine
end

