-- ==== Sys2Proof/Machine/Sequencer.lean ====
section
/-! DEFINITION. The fetch-decode-execute state machine (44_execution_cycle.md R180, R181) and the outcome of a step. -/

namespace Sys2Proof.Machine

/-- `StepOutcome` of R181: Continue, Halt or Fault(F). -/
inductive StepOutcome where
  | goesOn
  | halts
  | faults (k : FaultKind)
deriving DecidableEq, Repr

/-- The outcome of a step, read off the state it leaves (R180: a step from Running leaves Running, Halted or Faulted, and
these are Continue, Halt and Fault). DEDUCED: log 15. -/
def outcomeOf (t : State) : StepOutcome :=
  match t.seq with
  | .running => .goesOn
  | .halted => .halts
  | .faulted k => .faults k

/-- One step from state Running (R181): a failing stage latches its error at the instruction's own address. -/
def stepRunning (s : State) : Result :=
  match prepare s with
  | .error k => .next (s.fail s.pc k)
  | .ok (i, advanced) => exec i advanced

/-- The step in every state: R181 in Running, no step in Halted and Faulted (R180, R191; log 11). -/
def sequencerStep (s : State) : Result :=
  match s.seq with
  | .running => stepRunning s
  | .halted => .fault .halted
  | .faulted k => .fault (.faulted k)

/-- The state with word `w` stored where the next fetch reads it, the high byte first (20_memory.md R53; log 13). -/
def State.placeWord (s : State) (w : Word) : State :=
  (s.store s.pc (hiByte w)).store (s.pc + 1#8) (loByte w)

end Sys2Proof.Machine
end

