-- ==== Sys2Proof/Machine/Step.lean ====
section
/-! DEFINITION. The step function (44_execution_cycle.md R181) and the placing of an instruction where it fetches. -/

namespace Sys2Proof.Machine

/-- One step: one instruction, atomically (R181, R187). -/
def step (s : State) : Host.Outcome State Fault Refusal := Sys2Proof.Machine.sequencerStep s

/-- `s` with the opcode-table word `w` stored where `step` fetches its next instruction (log 13). -/
def State.withFetchWord (s : State) (nbits w : Nat) : State := s.placeWord (Sys2Proof.tableWord nbits w)

end Sys2Proof.Machine
end

