-- ==== Sys2Proof/Machine/Image.lean ====
section
/-! DEFINITION. The initial memory image as the loader's records give it (20_memory.md R64, 10_state.md R45). The loader's
text format is out of scope (00_scope.md R5): a record here is its start address and its bytes. -/

namespace Sys2Proof.Machine

/-- The 256 cells all holding `UNNAMED_CELL_VALUE` (R45, D12; log 5). -/
def Memory.filled (v : Byte) : Memory :=
  if v = unlistedByte then [] else (List.range 256).map (fun a => (a, v))

/-- A record's bytes written contiguously from address `a` (R64); `none` where one would lie past 0xFF: the image is
rejected (D13; log 14). -/
def Memory.writeRecord (m : Memory) (a : Nat) (bytes : List Byte) : Option Memory :=
  match bytes with
  | [] => some m
  | v :: rest => if a < 256 then Memory.writeRecord (Memory.insert m a v) (a + 1) rest else none

/-- The records in order over the memory `m` (a later record overwrites an earlier one: DEDUCED, log 14). -/
def Memory.writeRecords (m : Memory) (records : List (Byte × List Byte)) : Option Memory :=
  match records with
  | [] => some m
  | (a, bytes) :: rest =>
    match Memory.writeRecord m a.toNat bytes with
    | none => none
    | some m' => Memory.writeRecords m' rest

/-- The initial image that the records name, or `none`: a load error, and no run starts (R64). -/
def loadImage (c : Config) (records : List (Byte × List Byte)) : Option Memory :=
  Memory.writeRecords (Memory.filled c.unnamedCellValue) records

/-- Reset on the image of the records (70_reset_and_hazards.md R220). -/
def State.boot (c : Config) (records : List (Byte × List Byte)) : Option State :=
  (loadImage c records).map (State.resetWith c)

end Sys2Proof.Machine
end

