-- ==== Sys2Proof/Machine/Run.lean ====
section
/-! DEFINITION. The fuel-bounded execution loop through which a host drives the core (44_execution_cycle.md R189 to R193).
Fuel is an argument and a result, not a part of the context (10_state.md R43). -/

namespace Sys2Proof.Machine

/-- The terminal signals (R192): `fatal` is any of the five fatal error kinds. -/
inductive TerminalSignal where
  | fuelExhausted
  | haltExecution
  | fatal (k : FaultKind)
deriving DecidableEq, Repr

/-- What a burst hands back: the context, the unused fuel, the signal (R189). -/
structure Burst where
  context : State
  unused : Nat
  signal : TerminalSignal
deriving DecidableEq, Repr

/-- The fuel left after a Halt that ran with `n + 1` units (R190; log 4). -/
def fuelAfterHalt (c : Config) (n : Nat) : Nat := if c.haltConsumesFuel then n else n + 1

/-- `run(ctx, fuel)` (R189). The stops of the model's own step pass through; no call meets one, since a step is taken only
in state Running (log 16). -/
def run : Nat → State → Host.Outcome Burst Fault Refusal
  | 0, s =>
    match s.seq with
    | .halted => .next ⟨s, 0, .haltExecution⟩
    | .faulted k => .next ⟨s, 0, .fatal k⟩
    | .running => .next ⟨s, 0, .fuelExhausted⟩
  | n + 1, s =>
    match s.seq with
    | .halted => .next ⟨s, n + 1, .haltExecution⟩
    | .faulted k => .next ⟨s, n + 1, .fatal k⟩
    | .running =>
      match step s with
      | .fault r => .fault r
      | .refused r => .refused r
      | .next t =>
        match outcomeOf t with
        | .goesOn => run n t
        | .halts => .next ⟨t, fuelAfterHalt s.config n, .haltExecution⟩
        | .faults k => .next ⟨t, n + 1, .fatal k⟩

/-- What the host reads back at the end: the context, the instruction-cycles consumed, and the last signal (R193). -/
structure HostReport where
  context : State
  cycles : Nat
  signal : TerminalSignal
deriving DecidableEq, Repr

/-- The host's bursts (R193): the loop is invoked again, with the next budget, while the signal is that fuel ran out; the
cycles are the sum over bursts of fuel given minus fuel returned. With no budget left the host still reads the signal. -/
def runBursts : List Nat → State → Host.Outcome HostReport Fault Refusal
  | [], s =>
    match run 0 s with
    | .fault r => .fault r
    | .refused r => .refused r
    | .next b => .next ⟨b.context, 0, b.signal⟩
  | given :: later, s =>
    match run given s with
    | .fault r => .fault r
    | .refused r => .refused r
    | .next b =>
      if b.signal = .fuelExhausted then
        match runBursts later b.context with
        | .fault r => .fault r
        | .refused r => .refused r
        | .next h => .next ⟨h.context, (given - b.unused) + h.cycles, h.signal⟩
      else .next ⟨b.context, given - b.unused, b.signal⟩

end Sys2Proof.Machine
end

