-- ==== Sys2Proof/Safety.lean ====
section
/-! DEFINITION. The terms that claims about the machine use: the sequencer's states as conditions (44_execution_cycle.md
R180), what an instruction leaves alone, the register table of 10_state.md R33, the invariant, and what a safe run is. -/

namespace Sys2Proof

/-- The registers an instruction reads (10_state.md R33, column "registers read"). -/
def Instr.regsRead : Instr → List RegIdx
  | .noOp => []
  | .loadMemory _ _ => []
  | .loadValue _ _ => []
  | .storeMemory r _ => [r]
  | .moveRegister r _ => [r]
  | .addInteger _ s t => [s, t]
  | .addFloat _ s t => [s, t]
  | .bitwiseOr _ s t => [s, t]
  | .bitwiseAnd _ s t => [s, t]
  | .bitwiseXor _ s t => [s, t]
  | .bitwiseRotate r _ => [r]
  | .jump _ => []
  | .jumpIfEq r _ => [r, 0]
  | .halt => []
  | .loadIndirect _ s => [s]
  | .storeIndirect r s => [r, s]
  | .jumpIndirect t => [t]
  | .jumpWithTest r _ t => [r, 0, t]

/-- The register an instruction writes (R33, column "register written"). -/
def Instr.regWritten : Instr → Option RegIdx
  | .noOp => none
  | .loadMemory r _ => some r
  | .loadValue r _ => some r
  | .storeMemory _ _ => none
  | .moveRegister _ s => some s
  | .addInteger r _ _ => some r
  | .addFloat r _ _ => some r
  | .bitwiseOr r _ _ => some r
  | .bitwiseAnd r _ _ => some r
  | .bitwiseXor r _ _ => some r
  | .bitwiseRotate r _ => some r
  | .jump _ => none
  | .jumpIfEq _ _ => none
  | .halt => none
  | .loadIndirect r _ => some r
  | .storeIndirect _ _ => none
  | .jumpIndirect _ => none
  | .jumpWithTest _ _ _ => none

end Sys2Proof

namespace Sys2Proof.Machine

/-- State Running (R180): a step may be taken. -/
abbrev State.isRunning (s : State) : Prop := s.running = true ∧ s.fault = none

/-- State Halted (R180): Halt has executed. -/
abbrev State.isHalted (s : State) : Prop := s.running = false ∧ s.fault = none

/-- State Faulted with error `k` (R180): a fatal error was detected; `running` is still true (R185). -/
abbrev State.isFaulted (s : State) (k : FaultKind) : Prop := s.running = true ∧ s.fault = some k

/-- The word at the program counter (20_memory.md R53), for a pc up to 0xFE. -/
def State.wordAtPc (s : State) : Word := wordOfBytes (s.load s.pc) (s.load (s.pc + 1#8))

/-- The two states agree on every register. -/
def State.sameRegs (s t : State) : Prop := ∀ q : RegIdx, t.reg q = s.reg q

/-- The two states agree on every register but `r`. -/
def State.sameRegsBut (s t : State) (r : RegIdx) : Prop := ∀ q : RegIdx, q ≠ r → t.reg q = s.reg q

/-- The two states agree on every byte of memory. -/
def State.sameMemory (s t : State) : Prop := ∀ a : Byte, t.load a = s.load a

/-- The two states agree on every byte of memory but the one at `at_`. -/
def State.sameMemoryBut (s t : State) (at_ : Byte) : Prop := ∀ a : Byte, a ≠ at_ → t.load a = s.load a

/-- The two states agree on `running`, on the `fault` latch and on the parameters. -/
def State.sameControl (s t : State) : Prop := t.running = s.running ∧ t.fault = s.fault ∧ t.config = s.config

/-- What each latched error says of the state that holds it (60_exceptions.md R200 to R205): the pc is at the instruction
that did not complete, and that instruction raises exactly this error. -/
def State.latchIsTrue (s : State) : Prop :=
  match s.fault with
  | none => True
  | some .nullInstruction => s.pc.toNat ≤ 0xFE ∧ s.wordAtPc = 0x0000#16
  | some (.invalidInstruction w) => s.pc.toNat ≤ 0xFE ∧ s.wordAtPc = w ∧ decode w = .invalidInstruction w
  | some (.fetchOutOfRange a) => s.pc = a ∧ a = 0xFF#8
  | some (.pcOverflow a) => s.pc = a ∧ a = 0xFE#8 ∧ s.config.pcAdvanceOverflow = .fault
      ∧ ∃ i, decode s.wordAtPc = .op i
  | some (.shiftOutOfRange n) => s.pc.toNat ≤ 0xFE ∧ 8 ≤ n.toNat ∧ s.config.shiftGE8 = .fault
      ∧ ∃ r, decode s.wordAtPc = .op (.bitwiseRotate r n)

/-- The invariant of the machine: memory in canonical form, Halted and Faulted never both (R180), a latch that is true. -/
def State.inv (s : State) : Prop :=
  Memory.wf s.memory = true ∧ (s.running = false → s.fault = none) ∧ s.latchIsTrue

/-- A burst from `s` with fuel `n` is safe when it ends without a fatal error (R226). -/
def State.safeFor (s : State) (n : Nat) : Prop :=
  ∃ b : Burst, run n s = .next b ∧ ∀ k : FaultKind, b.signal ≠ .fatal k

end Sys2Proof.Machine
end

