-- ==== Sys2Proof/Certificates/Slice0/Obligations.lean ====
section
/-! DEFINITION. The statements for the provers, from the numbered rules of spec/. -/

open Sys2Proof Sys2Proof.Machine

/-! ## The decoder and the encoder (30_encoding.md) -/

/-- 30_encoding.md R74, R78: words written out from the encodings of the table decode to the instructions they stand for,
and the words next to them are rejected by name. -/
def Obligations.BoundaryWordsDecodeAsTabled : Prop :=
  decode 0x0000#16 = .nullInstruction ∧ decode 0x0001#16 = .invalidInstruction 0x0001#16
  ∧ decode 0x0FFE#16 = .invalidInstruction 0x0FFE#16 ∧ decode 0x0FFF#16 = .op .noOp
  ∧ decode 0x2A05#16 = .op (.loadValue 10 0x05#8) ∧ decode 0x403C#16 = .op (.moveRegister 3 12)
  ∧ decode 0x8ABC#16 = .op (.bitwiseAnd 10 11 12) ∧ decode 0xA010#16 = .invalidInstruction 0xA010#16
  ∧ decode 0xAF0F#16 = .op (.bitwiseRotate 15 0xF#4) ∧ decode 0xB0FF#16 = .op (.jump 0xFF#8)
  ∧ decode 0xB100#16 = .op (.jumpIfEq 1 0x00#8) ∧ decode 0xC000#16 = .op .halt
  ∧ decode 0xC001#16 = .invalidInstruction 0xC001#16 ∧ decode 0xE0AB#16 = .op (.storeIndirect 10 11)
  ∧ decode 0xF00F#16 = .op (.jumpIndirect 15) ∧ decode 0xF16A#16 = .op (.jumpWithTest 1 6#4 10)

/-- 30_encoding.md R85 (a) (derived by the spec from R76): every decoded word is the encoding of what it decodes to. -/
def Obligations.EncodeOfDecodedIsTheWord : Prop :=
  ∀ (w : Word) (i : Instr), decode w = .op i → encode i = w

/-- 30_encoding.md R85 (b), with the two checks that R85 offers (log 20): every well-formed instruction, with every operand at every value, decodes from its encoding. -/
def Obligations.DecodeOfEncodedIsTheInstruction : Prop :=
  ∀ i : Instr, i.wellFormed = true → decode (encode i) = .op i

/-- 30_encoding.md R85, 90_conflicts.md C3: the two exceptional forms decode to another variant, which has the same effect
on every state. -/
def Obligations.IllFormedVariantsActAsWhatTheyDecodeTo : Prop :=
  (∀ addr : Byte, decode (encode (.jumpIfEq 0 addr)) = .op (.jump addr)
    ∧ ∀ s : State, exec (.jumpIfEq 0 addr) s = exec (.jump addr) s)
  ∧ ∀ t : RegIdx, decode (encode (.jumpWithTest 0 0#4 t)) = .op (.jumpIndirect t)
    ∧ ∀ s : State, exec (.jumpWithTest 0 0#4 t) s = exec (.jumpIndirect t) s

/-- 30_encoding.md R81 (derived by the spec from R74 and R75): every decoded Operation passes both well-formedness checks. -/
def Obligations.DecodedInstructionsAreWellFormed : Prop :=
  ∀ (w : Word) (i : Instr), decode w = .op i → i.wellFormed = true

/-- 30_encoding.md R89 (derived by the spec from R74): the opcode map by `word[15:12]`, with the fields of R74 as quotients and remainders of the word read
as a number. -/
def Obligations.OpcodeMapByNibble : Prop :=
  ∀ (n : Nat) (h : n < 65536),
    let w : Word := BitVec.ofNat 16 n
    let r : RegIdx := ⟨n / 256 % 16, Nat.mod_lt _ (by decide)⟩
    let s : RegIdx := ⟨n / 16 % 16, Nat.mod_lt _ (by decide)⟩
    let t : RegIdx := ⟨n % 16, Nat.mod_lt _ (by decide)⟩
    let b : Byte := BitVec.ofNat 8 (n % 256)
    let no : DecodeResult := .invalidInstruction w
    decode w =
      if n / 4096 = 0x0 then
        (if n = 0x0000 then .nullInstruction else if n = 0x0FFF then .op .noOp else no)
      else if n / 4096 = 0x1 then .op (.loadMemory r b)
      else if n / 4096 = 0x2 then .op (.loadValue r b)
      else if n / 4096 = 0x3 then .op (.storeMemory r b)
      else if n / 4096 = 0x4 then (if r = 0 then .op (.moveRegister s t) else no)
      else if n / 4096 = 0x5 then .op (.addInteger r s t)
      else if n / 4096 = 0x6 then .op (.addFloat r s t)
      else if n / 4096 = 0x7 then .op (.bitwiseOr r s t)
      else if n / 4096 = 0x8 then .op (.bitwiseAnd r s t)
      else if n / 4096 = 0x9 then .op (.bitwiseXor r s t)
      else if n / 4096 = 0xA then (if s = 0 then .op (.bitwiseRotate r (BitVec.ofNat 4 (n % 16))) else no)
      else if n / 4096 = 0xB then (if r = 0 then .op (.jump b) else .op (.jumpIfEq r b))
      else if n / 4096 = 0xC then (if n = 0xC000 then .op .halt else no)
      else if n / 4096 = 0xD then (if r = 0 then .op (.loadIndirect s t) else no)
      else if n / 4096 = 0xE then (if r = 0 then .op (.storeIndirect s t) else no)
      else if r = 0 ∧ s = 0 then .op (.jumpIndirect t)
      else .op (.jumpWithTest r (BitVec.ofNat 4 (n / 16 % 16)) t)

/-- 30_encoding.md R75, whole: first match wins, in the order of the table: a non-null word decodes by an entry it matches that no
earlier entry matches, or no entry matches it and it is invalid. -/
def Obligations.DecodeIsFirstMatch : Prop :=
  ∀ w : Word, w ≠ 0x0000#16 →
    (∃ (earlier later : List Entry) (e : Entry), decodeTable = earlier ++ e :: later ∧ w &&& e.mask = e.pattern
      ∧ (∀ d ∈ earlier, w &&& d.mask ≠ d.pattern) ∧ decode w = .op (e.build w))
    ∨ ((∀ e ∈ decodeTable, w &&& e.mask ≠ e.pattern) ∧ decode w = .invalidInstruction w)

/-- 30_encoding.md R82 (derived by the spec from R74): the illegal words, as ranges. -/
def Obligations.IllegalWordsAreTheListedOnes : Prop :=
  ∀ n : Nat, n < 65536 →
    (decode (BitVec.ofNat 16 n) = .invalidInstruction (BitVec.ofNat 16 n) ↔
      (0x0001 ≤ n ∧ n ≤ 0x0FFE) ∨ (0x4100 ≤ n ∧ n ≤ 0x4FFF) ∨ (0xA000 ≤ n ∧ n ≤ 0xAFFF ∧ n / 16 % 16 ≠ 0)
      ∨ (0xC001 ≤ n ∧ n ≤ 0xCFFF) ∨ (0xD100 ≤ n ∧ n ≤ 0xDFFF) ∨ (0xE100 ≤ n ∧ n ≤ 0xEFFF))

/-! ## Memory (20_memory.md) -/

/-- 20_memory.md R51, R61: every cell of a memory in canonical form is readable and writable alike, and a read returns the
latest write to that cell. -/
def Obligations.ReadReturnsTheLatestWrite : Prop :=
  ∀ (m : Memory) (a b v : Byte), Memory.wf m = true →
    Memory.read (Memory.write m a v) b = if b = a then v else Memory.read m b

/-- 20_memory.md R59: reading twice with no write between gives the same value and leaves the memory alone, and writing the
same value twice leaves the same memory as writing it once; so does writing back the value a cell holds. -/
def Obligations.MemoryAccessesAreIdempotent : Prop :=
  ∀ (m : Memory) (a v : Byte), Memory.wf m = true →
    Memory.write (Memory.write m a v) a v = Memory.write m a v ∧ Memory.write m a (Memory.read m a) = m

/-- The model's own form of memory (log 5): two memories in canonical form that read alike at every address are equal. -/
def Obligations.EqualReadsMeanEqualMemories : Prop :=
  ∀ m m' : Memory, Memory.wf m = true → Memory.wf m' = true → (∀ a : Byte, Memory.read m a = Memory.read m' a) → m = m'

/-- 20_memory.md R53: fetch assembles the two bytes at `pc` and `pc + 1` big-endian, at odd addresses too (R56, the spec's
decision D7; log 9). -/
def Obligations.FetchIsBigEndian : Prop :=
  ∀ s : State, s.pc.toNat ≤ 0xFE →
    ∃ w : Word, fetch s = .ok w
      ∧ w.toNat = (s.load (BitVec.ofNat 8 s.pc.toNat)).toNat * 256 + (s.load (BitVec.ofNat 8 (s.pc.toNat + 1))).toNat

/-- 20_memory.md R62, 70_reset_and_hazards.md R224 (derived by the spec from R53, R61 and R181): a store is seen by the next fetch of the byte it hits, in the place that
byte has in the word, and every other byte of the fetched word is as before. -/
def Obligations.StoreIsSeenByTheNextFetch : Prop :=
  ∀ (s : State) (a v : Byte), Memory.wf s.memory = true → s.pc.toNat ≤ 0xFE →
    fetch (s.store a v) = .ok (wordOfBytes (if a = s.pc then v else s.load s.pc)
      (if a = s.pc + 1#8 then v else s.load (s.pc + 1#8)))

/-- 20_memory.md R52: which operations reach memory. Fetch depends on the two bytes at `pc` and `pc + 1` only; the two
loads on the one byte they read; every other operation on none; the two stores write the one byte they name; nothing else
writes memory. -/
def Obligations.OnlyTheseOperationsReachMemory : Prop :=
  (∀ (s : State) (m : Memory), Memory.read m s.pc = s.load s.pc → Memory.read m (s.pc + 1#8) = s.load (s.pc + 1#8) →
    fetch { s with memory := m } = fetch s)
  ∧ (∀ (i : Instr) (s t : State), exec i s = .next t →
      (∀ r addr, i ≠ .storeMemory r addr) → (∀ r a, i ≠ .storeIndirect r a) → t.memory = s.memory)
  ∧ (∀ (i : Instr) (s t : State) (m : Memory), exec i s = .next t →
      (∀ r addr, i ≠ .storeMemory r addr) → (∀ r a, i ≠ .storeIndirect r a) →
      (∀ r addr, i = .loadMemory r addr → Memory.read m (directAddr addr) = s.load (directAddr addr)) →
      (∀ r a, i = .loadIndirect r a → Memory.read m (indirectAddr s a) = s.load (indirectAddr s a)) →
      exec i { s with memory := m } = .next { t with memory := m })
  ∧ (∀ (i : Instr) (s t : State) (at_ : Byte), Memory.wf s.memory = true → exec i s = .next t →
      (∃ r addr, i = .storeMemory r addr ∧ at_ = directAddr addr) ∨ (∃ r a, i = .storeIndirect r a ∧ at_ = indirectAddr s a) →
      s.sameMemoryBut t at_)

/-! ## Data movement (40_data_movement.md) -/

/-- 40_data_movement.md R100, whole: the encoding 0001 rrrr aaaa aaaa, and `x[r] <- MemRead(addr, 1)` with nothing else
changed, for every `r` and `addr`. -/
def Obligations.LoadMemoryLoadsTheAddressedByte : Prop :=
  (∀ (r : RegIdx) (addr : Byte),
    decode (BitVec.ofNat 16 (0x1000 + r.val * 256 + addr.toNat)) = .op (.loadMemory r addr))
  ∧ ∀ (r : RegIdx) (addr : Byte) (s : State), ∃ t : State, exec (.loadMemory r addr) s = .next t
    ∧ t.reg r = s.load (directAddr addr) ∧ s.sameRegsBut t r ∧ s.sameMemory t ∧ t.pc = s.pc ∧ s.sameControl t

/-- 40_data_movement.md R101, whole: the encoding 0010 rrrr iiii iiii, and `x[r] <- imm` with nothing else changed. -/
def Obligations.LoadValueLoadsTheImmediate : Prop :=
  (∀ (r : RegIdx) (imm : Byte),
    decode (BitVec.ofNat 16 (0x2000 + r.val * 256 + imm.toNat)) = .op (.loadValue r imm))
  ∧ ∀ (r : RegIdx) (imm : Byte) (s : State), ∃ t : State, exec (.loadValue r imm) s = .next t
    ∧ t.reg r = imm ∧ s.sameRegsBut t r ∧ s.sameMemory t ∧ t.pc = s.pc ∧ s.sameControl t

/-- 40_data_movement.md R102: the encoding 1101 0000 rrrr ssss, and `x[r] <- mem[x[s]]`, the address read before the write
(derived by the spec from 00_scope.md R11), no base register changed but where it is the destination. -/
def Obligations.LoadIndirectLoadsTheNamedByte : Prop :=
  (∀ r a : RegIdx, decode (BitVec.ofNat 16 (0xD000 + r.val * 16 + a.val)) = .op (.loadIndirect r a))
  ∧ ∀ (r a : RegIdx) (s : State), ∃ t : State, exec (.loadIndirect r a) s = .next t
    ∧ t.reg r = s.load (indirectAddr s a) ∧ indirectAddr s a = s.reg a
    ∧ s.sameRegsBut t r ∧ s.sameMemory t ∧ t.pc = s.pc ∧ s.sameControl t

/-- 40_data_movement.md R103: the encoding 0011 rrrr aaaa aaaa, and `MemWrite(addr, 1, x[r])`, every other byte of memory
and every register unchanged. -/
def Obligations.StoreMemoryStoresTheRegister : Prop :=
  (∀ (r : RegIdx) (addr : Byte),
    decode (BitVec.ofNat 16 (0x3000 + r.val * 256 + addr.toNat)) = .op (.storeMemory r addr))
  ∧ ∀ (r : RegIdx) (addr : Byte) (s : State), Memory.wf s.memory = true →
    ∃ t : State, exec (.storeMemory r addr) s = .next t
    ∧ t.load (directAddr addr) = s.reg r ∧ s.sameMemoryBut t (directAddr addr) ∧ directAddr addr = addr
    ∧ s.sameRegs t ∧ t.pc = s.pc ∧ s.sameControl t

/-- 40_data_movement.md R104, whole: the encoding 1110 0000 rrrr ssss, and `MemWrite(x[s], 1, x[r])`, every other byte of
memory and every register unchanged, `r = s` included. -/
def Obligations.StoreIndirectStoresTheRegister : Prop :=
  (∀ r a : RegIdx, decode (BitVec.ofNat 16 (0xE000 + r.val * 16 + a.val)) = .op (.storeIndirect r a))
  ∧ ∀ (r a : RegIdx) (s : State), Memory.wf s.memory = true →
    ∃ t : State, exec (.storeIndirect r a) s = .next t
    ∧ t.load (indirectAddr s a) = s.reg r ∧ s.sameMemoryBut t (indirectAddr s a) ∧ indirectAddr s a = s.reg a
    ∧ s.sameRegs t ∧ t.pc = s.pc ∧ s.sameControl t

/-- 40_data_movement.md R105, whole: the encoding 0100 0000 rrrr ssss, and `x[s] <- x[r]`, the source first; `r = s` leaves
every register unchanged. -/
def Obligations.MoveRegisterCopiesFirstIntoSecond : Prop :=
  (∀ r d : RegIdx, decode (BitVec.ofNat 16 (0x4000 + r.val * 16 + d.val)) = .op (.moveRegister r d))
  ∧ ∀ (r d : RegIdx) (s : State), ∃ t : State, exec (.moveRegister r d) s = .next t
    ∧ t.reg d = s.reg r ∧ s.sameRegsBut t d ∧ (r = d → s.sameRegs t)
    ∧ s.sameMemory t ∧ t.pc = s.pc ∧ s.sameControl t

/-! ## The ALU (41_alu.md) -/

/-- 41_alu.md R121: the encoding 0101 rrrr ssss tttt, and `x[r]` holds the sum of `x[t]` and `x[s]` reduced to a byte (the
unsigned form that the spec derives in R121), the carry and the signed overflow discarded. -/
def Obligations.AddIntegerAddsModulo256 : Prop :=
  (∀ r a b : RegIdx, decode (BitVec.ofNat 16 (0x5000 + r.val * 256 + a.val * 16 + b.val)) = .op (.addInteger r a b))
  ∧ ∀ (r a b : RegIdx) (s : State), ∃ t : State, exec (.addInteger r a b) s = .next t
    ∧ (t.reg r).toNat = ((s.reg b).toNat + (s.reg a).toNat) % 256
    ∧ s.sameRegsBut t r ∧ s.sameMemory t ∧ t.pc = s.pc ∧ s.sameControl t

/-- 41_alu.md R121 (the equality is derived by the spec there): the signed reading of the same sum: `u8(s8(a) + s8(b))` is `u8(a + b)`, and it is symmetric. -/
def Obligations.SignedAndUnsignedSumsAgree : Prop :=
  ∀ a b : Byte, addInt a b = BitVec.ofNat 8 (a.toNat + b.toNat) ∧ (addInt a b).toInt = (a.toInt + b.toInt).bmod 256
    ∧ addInt a b = addInt b a

/-- 41_alu.md R122, whole: the value of a compact float from its sign, exponent and mantissa, its range, its zeros, and two
encodings of one value. -/
def Obligations.CompactFloatValue : Prop :=
  ∀ v : Byte,
    fdec v = (1 - 2 * ((v.toNat / 128 : Nat) : Int)) * ((v.toNat % 16 : Nat) : Int) * 2 ^ (v.toNat / 16 % 8)
    ∧ -1920 ≤ fdec v ∧ fdec v ≤ 1920 ∧ (fdec v = 0 ↔ v.toNat % 16 = 0)
    ∧ fdec 0x21#8 = 4 ∧ fdec 0x04#8 = 4

/-- 41_alu.md R124: the encoding 0110 rrrr ssss tttt, and `x[r] <- add_float(x[s], x[t])`, which is symmetric
(derived by the spec). -/
def Obligations.AddFloatWritesTheFloatSum : Prop :=
  (∀ r a b : RegIdx, decode (BitVec.ofNat 16 (0x6000 + r.val * 256 + a.val * 16 + b.val)) = .op (.addFloat r a b))
  ∧ (∀ (r a b : RegIdx) (s : State), ∃ t : State, exec (.addFloat r a b) s = .next t
    ∧ t.reg r = addFloat (s.reg a) (s.reg b) ∧ addFloat (s.reg a) (s.reg b) = addFloat (s.reg b) (s.reg a)
    ∧ s.sameRegsBut t r ∧ s.sameMemory t ∧ t.pc = s.pc ∧ s.sameControl t)

/-- 41_alu.md R123, the consequences it derives from its pseudocode (log 25): a zero sum gives 0x00; a magnitude below 8 is kept exactly with exponent 0; a
magnitude from 8 to 2047 is normalised to a mantissa of 8 to 15 at exponent floor(log2 mag) - 3 and truncated toward zero; a
magnitude from 2048 up saturates; the sign is the sum's; the result is never 0x80. -/
def Obligations.AddFloatTruncatesAndSaturates : Prop :=
  ∀ a b : Byte,
    let total : Int := fdec a + fdec b
    let mag : Nat := total.natAbs
    let k : Nat := Nat.log2 mag - 3
    let v : Byte := addFloat a b
    (total = 0 → v = 0x00#8)
    ∧ (total ≠ 0 → floatSign v = decide (total < 0))
    ∧ (0 < mag ∧ mag < 8 → floatExponent v = 0 ∧ floatMantissa v = mag ∧ fdec v = total)
    ∧ (8 ≤ mag ∧ mag < 2048 → floatExponent v = k ∧ floatMantissa v = mag / 2 ^ k
        ∧ 8 ≤ floatMantissa v ∧ (fdec v).natAbs = mag / 2 ^ k * 2 ^ k)
    ∧ (2048 ≤ mag → v = if total < 0 then 0xFF#8 else 0x7F#8)
    ∧ v ≠ 0x80#8

/-- 41_alu.md R125, whole: the encoding 0111 rrrr ssss tttt, and `x[r] <- x[t] | x[s]`, bit by bit. -/
def Obligations.BitwiseOrIsOrOfEveryBit : Prop :=
  (∀ r a b : RegIdx, decode (BitVec.ofNat 16 (0x7000 + r.val * 256 + a.val * 16 + b.val)) = .op (.bitwiseOr r a b))
  ∧ ∀ (r a b : RegIdx) (s : State), ∃ t : State, exec (.bitwiseOr r a b) s = .next t
    ∧ (∀ k : Nat, (t.reg r).getLsbD k = ((s.reg b).getLsbD k || (s.reg a).getLsbD k))
    ∧ s.sameRegsBut t r ∧ s.sameMemory t ∧ t.pc = s.pc ∧ s.sameControl t

/-- 41_alu.md R126, whole: the encoding 1000 rrrr ssss tttt, and `x[r] <- x[t] & x[s]`, bit by bit. -/
def Obligations.BitwiseAndIsAndOfEveryBit : Prop :=
  (∀ r a b : RegIdx, decode (BitVec.ofNat 16 (0x8000 + r.val * 256 + a.val * 16 + b.val)) = .op (.bitwiseAnd r a b))
  ∧ ∀ (r a b : RegIdx) (s : State), ∃ t : State, exec (.bitwiseAnd r a b) s = .next t
    ∧ (∀ k : Nat, (t.reg r).getLsbD k = ((s.reg b).getLsbD k && (s.reg a).getLsbD k))
    ∧ s.sameRegsBut t r ∧ s.sameMemory t ∧ t.pc = s.pc ∧ s.sameControl t

/-- 41_alu.md R127, whole: the encoding 1001 rrrr ssss tttt, and `x[r] <- x[t] ^ x[s]`, bit by bit; `s = t` clears. -/
def Obligations.BitwiseXorIsXorOfEveryBit : Prop :=
  (∀ r a b : RegIdx, decode (BitVec.ofNat 16 (0x9000 + r.val * 256 + a.val * 16 + b.val)) = .op (.bitwiseXor r a b))
  ∧ ∀ (r a b : RegIdx) (s : State), ∃ t : State, exec (.bitwiseXor r a b) s = .next t
    ∧ (∀ k : Nat, (t.reg r).getLsbD k = ((s.reg b).getLsbD k ^^ (s.reg a).getLsbD k)) ∧ (a = b → t.reg r = 0x00#8)
    ∧ s.sameRegsBut t r ∧ s.sameMemory t ∧ t.pc = s.pc ∧ s.sameControl t

/-- 41_alu.md R128, whole: for an amount of 0 to 7, under every value of the parameters, the shifter answers the quotient by
`2^n`: the low bits are lost, zeros enter at bit 7, nothing wraps around. -/
def Obligations.ShifterIsLogicalBelowEight : Prop :=
  ∀ (mode : ShiftGE8) (a : Byte) (n : Nibble), n.toNat < 8 →
    ∃ v : Byte, shr mode a n = .ok v ∧ v.toNat = a.toNat / 2 ^ n.toNat
      ∧ (∀ k : Nat, k < 8 → v.getLsbD k = if k + n.toNat < 8 then a.getLsbD (k + n.toNat) else false)

/-- 41_alu.md R130, R129 (the spec's decision D4; log 2): the encoding 1010 rrrr 0000 nnnn, and `x[r] <- shr(x[r], amount)`
for every amount that raises no error: below 8 the shifted value, from 8 up zero or the shift by `n mod 8`, as the parameter
says. -/
def Obligations.BitwiseRotateShiftsTheRegister : Prop :=
  (∀ (r : RegIdx) (n : Nibble),
    decode (BitVec.ofNat 16 (0xA000 + r.val * 256 + n.toNat)) = .op (.bitwiseRotate r n))
  ∧ ∀ (r : RegIdx) (n : Nibble) (s : State), (n.toNat < 8 ∨ s.config.shiftGE8 ≠ .fault) →
    ∃ t : State, exec (.bitwiseRotate r n) s = .next t
    ∧ (t.reg r).toNat =
        (if n.toNat < 8 then (s.reg r).toNat / 2 ^ n.toNat
         else if s.config.shiftGE8 = .zero then 0 else (s.reg r).toNat / 2 ^ (n.toNat - 8))
    ∧ s.sameRegsBut t r ∧ s.sameMemory t ∧ t.pc = s.pc ∧ s.sameControl t

/-- 41_alu.md R129, 60_exceptions.md R205 (the spec's decision D4; log 2): under `SHIFT_GE8 = Fault` a shift by 8 or more
latches ShiftOutOfRange with the amount at the instruction's own address, and writes no register and no memory. The address
is the advanced pc less 2 (log 12). -/
def Obligations.ShiftOutOfRangeIsLatched : Prop :=
  ∀ (r : RegIdx) (n : Nibble) (s : State), 8 ≤ n.toNat → s.config.shiftGE8 = .fault →
    ∃ t : State, exec (.bitwiseRotate r n) s = .next t
    ∧ t.fault = some (.shiftOutOfRange n) ∧ t.pc = s.pc - 2#8
    ∧ s.sameRegs t ∧ s.sameMemory t ∧ t.running = s.running ∧ t.config = s.config

/-! ## Control transfer (42_control.md) -/

/-- 42_control.md R150 (the spec's decision D5 at 0xFE; log 3): the incrementer adds 2 up to 0xFD; from 0xFE it raises
PcOverflow or wraps to 0x00, as the parameter says. -/
def Obligations.PcAdvancesByTwo : Prop :=
  ∀ (mode : PcAdvanceOverflow) (a : Byte),
    (a.toNat ≤ 0xFD → ∃ v : Byte, pcSeq mode a = .ok v ∧ v.toNat = a.toNat + 2)
    ∧ (a = 0xFE#8 → pcSeq mode a = if mode = .fault then .error (.pcOverflow 0xFE#8) else .ok 0x00#8)

/-- 42_control.md R151 (codes D2, orientation D3: the spec's decisions; logs 6 and 7): the comparison unit, on unsigned
values, for all sixteen selectors. -/
def Obligations.ComparisonIsUnsignedBySelector : Prop :=
  ∀ (x : Nibble) (a b : Byte),
    (compareTest x a b = true ↔
      (x = 0#4 ∧ a.toNat = b.toNat) ∨ (x = 1#4 ∧ a.toNat ≠ b.toNat) ∨ (x = 2#4 ∧ b.toNat ≤ a.toNat)
      ∨ (x = 3#4 ∧ a.toNat ≤ b.toNat) ∨ (x = 4#4 ∧ b.toNat < a.toNat) ∨ (x = 5#4 ∧ a.toNat < b.toNat))

/-- 42_control.md R153: the encoding 1011 0000 aaaa aaaa, the same word as JumpIfEq R0 encodes to; `pc <- addr` for every
address, odd ones too (the spec's decision D7; log 9), no error at the jump, the error at the next fetch of a target 0xFF
(named by the spec's decision D6; log 8); a jump to the advanced pc acts as NoOp, and a jump to itself loops. -/
def Obligations.JumpSetsThePc : Prop :=
  (∀ addr : Byte, decode (BitVec.ofNat 16 (0xB000 + addr.toNat)) = .op (.jump addr)
    ∧ encode (.jumpIfEq 0 addr) = BitVec.ofNat 16 (0xB000 + addr.toNat))
  ∧ (∀ (addr : Byte) (s : State), ∃ t : State, exec (.jump addr) s = .next t
    ∧ t.pc = directTarget addr ∧ directTarget addr = addr ∧ s.sameRegs t ∧ s.sameMemory t ∧ s.sameControl t
    ∧ (addr = 0xFF#8 → fetch t = .error (.fetchOutOfRange 0xFF#8)))
  ∧ (∀ s : State, exec (.jump s.pc) s = exec .noOp s)
  ∧ (∀ s : State, s.isRunning → s.pc.toNat ≤ 0xFD → s.wordAtPc = BitVec.ofNat 16 (0xB000 + s.pc.toNat) → step s = .next s)

/-- 42_control.md R154: the encoding 1011 rrrr aaaa aaaa with r from 1 to 15, `pc <- addr` where `x[r]` equals `x[0]` in all
8 bits, and the advanced pc kept where it does not; the error at the next fetch of a target 0xFF (D6; log 8). -/
def Obligations.JumpIfEqJumpsOnEquality : Prop :=
  (∀ (r : RegIdx) (addr : Byte), r ≠ 0 →
    decode (BitVec.ofNat 16 (0xB000 + r.val * 256 + addr.toNat)) = .op (.jumpIfEq r addr))
  ∧ ∀ (r : RegIdx) (addr : Byte) (s : State), ∃ t : State, exec (.jumpIfEq r addr) s = .next t
    ∧ t.pc = (if s.reg r = s.reg 0 then directTarget addr else s.pc) ∧ directTarget addr = addr
    ∧ s.sameRegs t ∧ s.sameMemory t ∧ s.sameControl t
    ∧ (s.reg r = s.reg 0 → addr = 0xFF#8 → fetch t = .error (.fetchOutOfRange 0xFF#8))

/-- 42_control.md R155: the encoding 1111 0000 0000 tttt, `pc <- x[t]` for every value, odd ones too (the spec's decision D7;
log 9), and the error at the next fetch of a target 0xFF (named by the spec's decision D6; log 8). -/
def Obligations.JumpIndirectSetsThePcFromARegister : Prop :=
  (∀ a : RegIdx, decode (BitVec.ofNat 16 (0xF000 + a.val)) = .op (.jumpIndirect a))
  ∧ ∀ (a : RegIdx) (s : State), ∃ t : State, exec (.jumpIndirect a) s = .next t
    ∧ t.pc = indirectTarget s a ∧ indirectTarget s a = s.reg a ∧ s.sameRegs t ∧ s.sameMemory t ∧ s.sameControl t
    ∧ (s.reg a = 0xFF#8 → fetch t = .error (.fetchOutOfRange 0xFF#8))

/-- 42_control.md R156 (codes D2, orientation D3: the spec's decisions; logs 6 and 7): the encoding 1111 rrrr xxxx tttt with
(r, x) not (0, 0); the jump is taken exactly where the selected comparison of `x[r]` against `x[0]` holds; selectors 6 to 15
never jump; every register is as before. -/
def Obligations.JumpWithTestJumpsWhereTheTestHolds : Prop :=
  (∀ (r : RegIdx) (x : Nibble) (a : RegIdx), ¬ (r = 0 ∧ x = 0#4) →
    decode (BitVec.ofNat 16 (0xF000 + r.val * 256 + x.toNat * 16 + a.val)) = .op (.jumpWithTest r x a))
  ∧ ∀ (r : RegIdx) (x : Nibble) (a : RegIdx) (s : State), ∃ t : State, exec (.jumpWithTest r x a) s = .next t
    ∧ t.pc =
        (if (x = 0#4 ∧ s.reg r = s.reg 0) ∨ (x = 1#4 ∧ s.reg r ≠ s.reg 0)
          ∨ (x = 2#4 ∧ (s.reg 0).toNat ≤ (s.reg r).toNat) ∨ (x = 3#4 ∧ (s.reg r).toNat ≤ (s.reg 0).toNat)
          ∨ (x = 4#4 ∧ (s.reg 0).toNat < (s.reg r).toNat) ∨ (x = 5#4 ∧ (s.reg r).toNat < (s.reg 0).toNat)
         then s.reg a else s.pc)
    ∧ s.sameRegs t ∧ s.sameMemory t ∧ s.sameControl t

/-! ## System instructions (43_system.md) -/

/-- 43_system.md R170: the encoding 0x0FFF, no effect of its own; the step's only effect is the advance, and at 0xFE under
`PC_ADVANCE_OVERFLOW = Fault` (the spec's decision D5) it faults. -/
def Obligations.NoOpOnlyAdvancesThePc : Prop :=
  decode 0x0FFF#16 = .op .noOp ∧ (∀ s : State, exec .noOp s = .next s)
  ∧ (∀ s : State, s.isRunning → s.wordAtPc = 0x0FFF#16 → s.pc.toNat ≤ 0xFD →
      step s = .next { s with pc := s.pc + 2#8 })
  ∧ (∀ s : State, s.isRunning → s.wordAtPc = 0x0FFF#16 → s.pc = 0xFE#8 → s.config.pcAdvanceOverflow = .fault →
      step s = .next { s with fault := some (.pcOverflow 0xFE#8) })

/-- 43_system.md R171: the encoding 0xC000 exactly; Halt clears `running` and changes nothing else; a step that runs it
leaves `pc = A + 2` (up to 0xFD; derived by the spec from R184), and the loop stops at once with HaltExecution, the fuel charged as `HALT_CONSUMES_FUEL`
says (the spec's decision D9; log 4). -/
def Obligations.HaltStopsTheRun : Prop :=
  (∀ w : Word, decode w = .op .halt ↔ w = 0xC000#16)
  ∧ (∀ s : State, ∃ t : State, exec .halt s = .next t ∧ t.running = false
      ∧ t.pc = s.pc ∧ s.sameRegs t ∧ s.sameMemory t ∧ t.fault = s.fault ∧ t.config = s.config)
  ∧ (∀ (s : State) (n : Nat), s.isRunning → s.wordAtPc = 0xC000#16 → s.pc.toNat ≤ 0xFD →
      run (n + 1) s = .next ⟨{ s with pc := s.pc + 2#8, running := false },
        if s.config.haltConsumesFuel = true then n else n + 1, .haltExecution⟩)

/-! ## The sequencer and the step (44_execution_cycle.md, 60_exceptions.md, 10_state.md) -/

/-- 44_execution_cycle.md R181: where the bytes at the program counter decode to a well-formed instruction and the advance
gives an address, a step in state Running is exec of that instruction on the state with the pc advanced. -/
def Obligations.StepRunsTheDecodedInstruction : Prop :=
  ∀ (s : State) (i : Instr) (seq : Byte), s.isRunning → s.pc.toNat ≤ 0xFE → decode s.wordAtPc = .op i →
    i.wellFormed = true → pcSeq s.config.pcAdvanceOverflow s.pc = .ok seq → step s = exec i { s with pc := seq }

/-- 44_execution_cycle.md R185, 60_exceptions.md R207 (the spec's decisions D5, D6, D8, D17; logs 8, 10, 17): each fatal
error, in the order of the stages; it sets the latch, leaves the pc at the instruction, and changes nothing else. -/
def Obligations.FatalErrorsArePreciseAndOrdered : Prop :=
  ∀ s : State, s.isRunning →
    (s.pc = 0xFF#8 → step s = .next { s with fault := some (.fetchOutOfRange 0xFF#8) })
    ∧ (s.pc.toNat ≤ 0xFE → s.wordAtPc = 0x0000#16 → step s = .next { s with fault := some .nullInstruction })
    ∧ (∀ w : Word, s.pc.toNat ≤ 0xFE → decode s.wordAtPc = .invalidInstruction w →
        w = s.wordAtPc ∧ step s = .next { s with fault := some (.invalidInstruction w) })
    ∧ (∀ i : Instr, s.pc = 0xFE#8 → s.config.pcAdvanceOverflow = .fault → decode s.wordAtPc = .op i →
        step s = .next { s with fault := some (.pcOverflow 0xFE#8) })
    ∧ (∀ (r : RegIdx) (n : Nibble), (s.pc.toNat ≤ 0xFD ∨ (s.pc = 0xFE#8 ∧ s.config.pcAdvanceOverflow = .wrap)) →
        decode s.wordAtPc = .op (.bitwiseRotate r n) → 8 ≤ n.toNat → s.config.shiftGE8 = .fault →
        step s = .next { s with fault := some (.shiftOutOfRange n) })

/-- 44_execution_cycle.md R180 (Faulted is the spec's decision D8; log 10): a step from Running always gives a next state, and that state is Running, Halted or Faulted,
never two of them. -/
def Obligations.RunningAlwaysSteps : Prop :=
  ∀ s : State, s.isRunning → ∃ t : State, step s = .next t ∧ (t.isRunning ∨ t.isHalted ∨ ∃ k : FaultKind, t.isFaulted k)

/-- 44_execution_cycle.md R180, R191 (the spec's decision D11; log 11): no step is taken from Halted or from Faulted; the
model's step stops there, by name. -/
def Obligations.StoppedContextTakesNoStep : Prop :=
  (∀ s : State, s.running = false → step s = .fault .halted)
  ∧ ∀ (s : State) (k : FaultKind), s.isFaulted k → step s = .fault (.faulted k)

/-- 10_state.md R40, whole: only Halt clears `running`, no instruction reads it, nothing sets it back to true, and a step is
taken only while it is true. -/
def Obligations.OnlyHaltClearsRunning : Prop :=
  (∀ (s t : State) (b : Bool), exec .halt s = .next t → t.running = false ∧ exec .halt { s with running := b } = .next t)
  ∧ (∀ (i : Instr) (s t : State), i ≠ .halt → exec i s = .next t → t.running = s.running)
  ∧ (∀ (i : Instr) (s t : State) (b : Bool), i ≠ .halt → exec i s = .next t →
      exec i { s with running := b } = .next { t with running := b })
  ∧ (∀ s t : State, step s = .next t → s.running = true)
  ∧ (∀ s t : State, step s = .next t → t.running = false → decode s.wordAtPc = .op .halt)

/-- 10_state.md R41 (the spec's decision D8; log 10): the latch is set by a step from `None` only, nothing clears it, and no
instruction reads it or, but for the shift error, writes it. -/
def Obligations.FaultLatchIsFinal : Prop :=
  (∀ s t : State, step s = .next t → s.fault = none)
  ∧ (∀ (i : Instr) (s t : State), exec i s = .next t →
      t.fault = s.fault ∨ ∃ (r : RegIdx) (n : Nibble), i = .bitwiseRotate r n ∧ t.fault = some (.shiftOutOfRange n)
        ∧ 8 ≤ n.toNat ∧ s.config.shiftGE8 = .fault)
  ∧ (∀ (i : Instr) (s t : State) (f : Option FaultKind), exec i s = .next t → t.fault = s.fault →
      (∃ t' : State, exec i { s with fault := f } = .next t' ∧ t'.regs = t.regs ∧ t'.memory = t.memory ∧ t'.pc = t.pc
        ∧ t'.running = t.running))

/-- The model's own field (log 1): no step changes the parameters. -/
def Obligations.ParametersNeverChange : Prop :=
  ∀ s t : State, step s = .next t → t.config = s.config

/-- 10_state.md R33 (a table the spec derives from the instruction rules): an instruction leaves every register but the one the table lists as written, and what it does depends
only on the registers the table lists as read. -/
def Obligations.RegisterFootprintIsTheTable : Prop :=
  (∀ (i : Instr) (s t : State) (q : RegIdx), exec i s = .next t → i.regWritten ≠ some q → t.reg q = s.reg q)
  ∧ ∀ (i : Instr) (s t : State) (other : Vector Byte 16), exec i s = .next t →
      (∀ q ∈ i.regsRead, other[q.val] = s.reg q) →
      ∃ t' : State, exec i { s with regs := other } = .next t' ∧ t'.pc = t.pc ∧ t'.memory = t.memory
        ∧ t'.running = t.running ∧ t'.fault = t.fault ∧ t'.config = t.config
        ∧ (∀ q : RegIdx, i.regWritten = some q → t'.reg q = t.reg q)

/-- 42_control.md R152, R157, 10_state.md R36: an instruction that is no jump, and completes without an error, keeps the
advanced pc; a jump's next pc is its target or the advanced pc, and no jump writes a register, memory or `running`. -/
def Obligations.OnlyJumpsRedirectThePc : Prop :=
  ∀ (i : Instr) (s t : State), exec i s = .next t → t.fault = s.fault →
    match i with
    | .jump addr => t = { s with pc := addr }
    | .jumpIfEq _ addr => t = { s with pc := addr } ∨ t = s
    | .jumpIndirect a => t = { s with pc := s.reg a }
    | .jumpWithTest _ _ a => t = { s with pc := s.reg a } ∨ t = s
    | .bitwiseRotate _ n => t.pc = s.pc ∨ (8 ≤ n.toNat ∧ s.config.shiftGE8 = .fault)
    | _ => t.pc = s.pc

/-- The invariant that every step keeps, from every state that has it: the memory stays canonical, Halted and Faulted never
both hold (R180), and a latched error is true of the instruction the pc is left at (R185, 60_exceptions.md R200 to R205; the latch is
the spec's decision D8; logs 5 and 10). -/
def Obligations.EveryStepKeepsTheInvariant : Prop :=
  ∀ s t : State, s.inv → step s = .next t → t.inv

/-- The invariant holds after reset (the model's own invariant; logs 5 and 10). -/
def Obligations.ResetHasTheInvariant : Prop := State.reset.inv

/-- 70_reset_and_hazards.md R220, 10_state.md R45: reset under any parameters and any image (`running` is derived by the
spec, the latch its decision D8; logs 21 and 10). -/
def Obligations.ResetLeavesTheStatedValues : Prop :=
  ∀ (c : Config) (m : Memory),
    (State.resetWith c m).pc = 0x00#8 ∧ (∀ q : RegIdx, (State.resetWith c m).reg q = 0x00#8)
    ∧ (∀ a : Byte, (State.resetWith c m).load a = Memory.read m a)
    ∧ (State.resetWith c m).running = true ∧ (State.resetWith c m).fault = none

/-- 20_memory.md R64 (D12, D13: the spec's decisions; logs 5 and 14): one record's bytes stand contiguously from its
address, every other cell holds `UNNAMED_CELL_VALUE`, and a record that would reach past 0xFF gives no image. -/
def Obligations.LoaderRecordBecomesTheImage : Prop :=
  ∀ (c : Config) (a : Byte) (bytes : List Byte),
    (a.toNat + bytes.length ≤ 256 → ∃ m : Memory, loadImage c [(a, bytes)] = some m ∧ Memory.wf m = true
      ∧ ∀ b : Byte, Memory.read m b =
          if h : a.toNat ≤ b.toNat ∧ b.toNat - a.toNat < bytes.length then bytes[b.toNat - a.toNat]'h.2
          else c.unnamedCellValue)
    ∧ (256 < a.toNat + bytes.length → loadImage c [(a, bytes)] = none)

/-- 20_memory.md R62, 44_execution_cycle.md R181, as the placing of a word uses them (log 13): a step on the state with the
encoding of a well-formed instruction placed at a pc of at most 0xFD runs exactly that instruction. -/
def Obligations.PlacedWordIsTheNextInstruction : Prop :=
  ∀ (s : State) (i : Instr), s.isRunning → Memory.wf s.memory = true → s.pc.toNat ≤ 0xFD → i.wellFormed = true →
    step (s.withFetchWord 16 (encode i).toNat)
      = exec i { s.withFetchWord 16 (encode i).toNat with pc := s.pc + 2#8 }

/-! ## The fuel loop (44_execution_cycle.md R189 to R193) -/

/-- 44_execution_cycle.md R191 (the spec's decision D11; log 11): a burst on a stopped context returns it at once, with the
fuel unchanged and its signal; one with no fuel takes no step (D10). -/
def Obligations.BurstOnAStoppedContextReturnsAtOnce : Prop :=
  ∀ (n : Nat) (s : State),
    (s.isHalted → run n s = .next ⟨s, n, .haltExecution⟩)
    ∧ (∀ k : FaultKind, s.isFaulted k → run n s = .next ⟨s, n, .fatal k⟩)
    ∧ (s.isRunning → run 0 s = .next ⟨s, 0, .fuelExhausted⟩)

/-- 44_execution_cycle.md R192 (names and latch by the spec's decisions D6, D8, D10, D11; logs 4, 8, 10, 11): every burst answers with a terminal signal, and the state after is the one the table gives;
where fuel ran out none is left. -/
def Obligations.TerminalSignalSaysTheStateAfter : Prop :=
  ∀ (n : Nat) (s : State), (s.running = false → s.fault = none) →
    ∃ b : Burst, run n s = .next b ∧ b.unused ≤ n
      ∧ ((b.signal = .fuelExhausted ∧ b.unused = 0 ∧ b.context.isRunning)
        ∨ (b.signal = .haltExecution ∧ b.context.isHalted)
        ∨ ∃ k : FaultKind, b.signal = .fatal k ∧ b.context.isFaulted k)

/-- 44_execution_cycle.md R189, R190 (the spec's decisions D9, D10; log 4): a burst is the iterated step, and its fuel is the
number of completed instructions: each Continue one unit, Halt one or none as the parameter says, a faulting step none. -/
def Obligations.BurstIsTheIteratedStep : Prop :=
  ∀ (n : Nat) (s : State) (b : Burst), s.isRunning → run n s = .next b →
    (b.signal = .fuelExhausted → Sys2Proof.core.run n s = .next b.context)
    ∧ (b.signal = .haltExecution → ∃ k : Nat, Sys2Proof.core.run (k + 1) s = .next b.context
        ∧ n = b.unused + k + (if s.config.haltConsumesFuel = true then 1 else 0))
    ∧ (∀ f : FaultKind, b.signal = .fatal f → ∃ k : Nat, Sys2Proof.core.run (k + 1) s = .next b.context ∧ n = b.unused + k)

/-- 60_exceptions.md R204, R205, R206 (the spec's decisions D4, D5; logs 2 and 3): a burst from an unlatched context ends in
ShiftOutOfRange only under `SHIFT_GE8 = Fault` and with an amount of at least 8, and in PcOverflow only under
`PC_ADVANCE_OVERFLOW = Fault` and at 0xFE; FetchOutOfRange is always at 0xFF. -/
def Obligations.FatalErrorsNeedTheirCause : Prop :=
  ∀ (n : Nat) (s : State) (b : Burst), s.fault = none → run n s = .next b →
    (∀ k : Nibble, b.signal = .fatal (.shiftOutOfRange k) → s.config.shiftGE8 = .fault ∧ 8 ≤ k.toNat)
    ∧ (∀ a : Byte, b.signal = .fatal (.pcOverflow a) → s.config.pcAdvanceOverflow = .fault ∧ a = 0xFE#8)
    ∧ (∀ a : Byte, b.signal = .fatal (.fetchOutOfRange a) → a = 0xFF#8)

/-- 70_reset_and_hazards.md R226 (a consequence of R189, fuel tested before each fetch: the spec's decision D10; log 4): a
burst that is safe stays safe with less fuel. -/
def Obligations.SaferWithLessFuel : Prop :=
  ∀ (m n : Nat) (s : State), m ≤ n → s.safeFor n → s.safeFor m

/-- 44_execution_cycle.md R193 (derived by the spec from R189 and R190; log 16): the burst sizes do not matter. Any list of budgets gives the final state, the signal and the
instruction-cycles consumed that one burst with their sum gives. -/
def Obligations.BurstSizesDoNotMatter : Prop :=
  ∀ (budgets : List Nat) (s : State) (b : Burst), run budgets.sum s = .next b →
    runBursts budgets s = .next ⟨b.context, budgets.sum - b.unused, b.signal⟩
end

