-- ==== Sys2Proof/Laws/Alu.lean ====
section
/-! SUPPORT. The compact float's normalisation search and its packed byte (41_alu.md R122, R123). -/

namespace Sys2Proof.Machine

/-- Everything the search of R123 can answer: the position of the magnitude's leading bit less 3, and 0 below 8. -/
theorem floatExcess_eq (mag e : Nat) (h : mag < 2 ^ (e + 4)) : floatExcess mag e = Nat.log2 mag - 3 := by
  induction e with
  | zero =>
    have : Nat.log2 mag < 4 ∨ mag = 0 := by
      by_cases h0 : mag = 0
      · exact .inr h0
      · exact .inl ((Nat.log2_lt h0).mpr (by simpa using h))
    rcases this with h1 | rfl
    · simp only [floatExcess]; omega
    · rfl
  | succ e ih =>
    have hbit : (mag >>> (e + 1)).testBit 3 = mag.testBit (e + 4) := by
      rw [Nat.testBit_shiftRight]
    rw [floatExcess, hbit]
    by_cases hlt : mag < 2 ^ (e + 4)
    · rw [Nat.testBit_lt_two_pow hlt]
      simpa using ih hlt
    · have hge : 2 ^ (e + 4) ≤ mag := by omega
      have hpos : mag ≠ 0 := by
        have := Nat.two_pow_pos (e + 4)
        omega
      have hlog : Nat.log2 mag = e + 4 := by
        have h1 : Nat.log2 mag < e + 5 := (Nat.log2_lt hpos).mpr h
        have h2 : e + 4 ≤ Nat.log2 mag := (Nat.le_log2 hpos).mpr hge
        omega
      have hset : mag.testBit (e + 4) = true := Nat.testBit_of_two_pow_le_and_two_pow_add_one_gt hge h
      rw [hset, hlog]
      simp

/-- The fields of a packed byte read back. -/
theorem floatPack_fields (sign : Bool) (exponent mantissa : Nat) (he : exponent < 8) (hm : mantissa < 16) :
    floatSign (floatPack sign exponent mantissa) = sign
    ∧ floatExponent (floatPack sign exponent mantissa) = exponent
    ∧ floatMantissa (floatPack sign exponent mantissa) = mantissa := by
  unfold floatSign floatExponent floatMantissa floatPack
  revert sign
  interval_cases exponent <;> interval_cases mantissa <;> decide

end Sys2Proof.Machine
end

