-- ==== Sys2Proof/Laws/Encoding.lean ====
section
/-! SUPPORT. Fields of a word and fields put in place (30_encoding.md R73, R76, R84): reading back what was placed. -/

namespace Sys2Proof

/-- A placed field, bit by bit. -/
theorem getLsbD_place {n : Nat} (f : BitVec n) (off k : Nat) (hk : k < 16) :
    (place f off).getLsbD k = if off ≤ k then f.getLsbD (k - off) else false := by
  unfold place
  by_cases h : off ≤ k
  · have : ¬ k < off := by omega
    simp [hk, h, this]
  · have : k < off := by omega
    simp [BitVec.getLsbD_shiftLeft, h, this]

theorem extract_or (a b : Word) (off n : Nat) :
    (a ||| b).extractLsb' off n = a.extractLsb' off n ||| b.extractLsb' off n := by
  ext k hk
  simp

/-- Reading a field where it was placed gives it back. -/
theorem extract_place_self {n : Nat} (f : BitVec n) (off : Nat) (h : off + n ≤ 16) :
    (place f off).extractLsb' off n = f := by
  ext k hk
  rw [BitVec.getElem_extractLsb', getLsbD_place f off (off + k) (by omega)]
  simp [BitVec.getLsbD_eq_getElem hk]

/-- Reading below a placed field gives zeros. -/
theorem extract_place_below {n : Nat} (f : BitVec n) (off lo k : Nat) (h : lo + k ≤ off) (h16 : lo + k ≤ 16) :
    (place f off).extractLsb' lo k = 0#k := by
  ext j hj
  rw [BitVec.getElem_extractLsb', getLsbD_place f off (lo + j) (by omega)]
  have : ¬ off ≤ lo + j := by omega
  simp [this]

/-- Reading above a placed field gives zeros. -/
theorem extract_place_above {n : Nat} (f : BitVec n) (off lo k : Nat) (h : off + n ≤ lo) (h16 : lo + k ≤ 16) :
    (place f off).extractLsb' lo k = 0#k := by
  ext j hj
  rw [BitVec.getElem_extractLsb', getLsbD_place f off (lo + j) (by omega)]
  have h1 : off ≤ lo + j := by omega
  have h2 : n ≤ lo + j - off := by omega
  simp [h1, BitVec.getLsbD_of_ge f _ h2]

@[simp] theorem ofNibble_toNibble (r : RegIdx) : RegIdx.ofNibble r.toNibble = r := rfl
@[simp] theorem toNibble_ofNibble (n : Nibble) : (RegIdx.ofNibble n).toNibble = n := rfl

/-- The bytes of a word, put together again, are the word. -/
@[simp] theorem wordOfBytes_hi_lo (w : Word) : wordOfBytes (hiByte w) (loByte w) = w := by
  unfold wordOfBytes hiByte loByte
  ext k hk
  rw [BitVec.getElem_append]
  split
  · rw [BitVec.getElem_extractLsb', Nat.zero_add, BitVec.getLsbD_eq_getElem]
  · rw [BitVec.getElem_extractLsb']
    have : 8 + (k - 8) = k := by omega
    rw [this, BitVec.getLsbD_eq_getElem]

/-- The opcode-table word of a 16-bit number is that number. -/
theorem tableWord_toNat (w : Word) : tableWord 16 w.toNat = w := by
  unfold tableWord
  rw [Nat.mod_eq_of_lt w.isLt, BitVec.ofNat_toNat, BitVec.setWidth_eq]

/-- A word of the formats with four nibbles (R72: RST, RXT, ZRS, R0N, ZZT): each nibble reads back. -/
theorem nibbles_read_back (p a b c : Nibble) :
    let w := place p 12 ||| place a 8 ||| place b 4 ||| place c 0
    w.extractLsb' 12 4 = p ∧ w.extractLsb' 8 4 = a ∧ w.extractLsb' 4 4 = b ∧ w.extractLsb' 0 4 = c := by
  simp only [extract_or]
  refine ⟨?_, ?_, ?_, ?_⟩
  · rw [extract_place_self p 12 (by omega), extract_place_above a 8 12 4 (by omega) (by omega),
      extract_place_above b 4 12 4 (by omega) (by omega), extract_place_above c 0 12 4 (by omega) (by omega)]
    simp
  · rw [extract_place_below p 12 8 4 (by omega) (by omega), extract_place_self a 8 (by omega),
      extract_place_above b 4 8 4 (by omega) (by omega), extract_place_above c 0 8 4 (by omega) (by omega)]
    simp
  · rw [extract_place_below p 12 4 4 (by omega) (by omega), extract_place_below a 8 4 4 (by omega) (by omega),
      extract_place_self b 4 (by omega), extract_place_above c 0 4 4 (by omega) (by omega)]
    simp
  · rw [extract_place_below p 12 0 4 (by omega) (by omega), extract_place_below a 8 0 4 (by omega) (by omega),
      extract_place_below b 4 0 4 (by omega) (by omega), extract_place_self c 0 (by omega)]
    simp

/-- A word of the formats with two nibbles and a byte (R72: RA, ZA): each field reads back. -/
theorem byte_reads_back (p a : Nibble) (b : Byte) :
    let w := place p 12 ||| place a 8 ||| place b 0
    w.extractLsb' 12 4 = p ∧ w.extractLsb' 8 4 = a ∧ w.extractLsb' 0 8 = b := by
  simp only [extract_or]
  refine ⟨?_, ?_, ?_⟩
  · rw [extract_place_self p 12 (by omega), extract_place_above a 8 12 4 (by omega) (by omega),
      extract_place_above b 0 12 4 (by omega) (by omega)]
    simp
  · rw [extract_place_below p 12 8 4 (by omega) (by omega), extract_place_self a 8 (by omega),
      extract_place_above b 0 8 4 (by omega) (by omega)]
    simp
  · rw [extract_place_below p 12 0 8 (by omega) (by omega), extract_place_below a 8 0 8 (by omega) (by omega),
      extract_place_self b 0 (by omega)]
    simp

/-- The four masks of the decode table that leave fields, in terms of nibbles (R74). -/
theorem mask_top (w : Word) (p : Nibble) : w &&& 0xF000#16 = place p 12 ↔ w.extractLsb' 12 4 = p := by
  constructor
  · intro h
    have := congrArg (BitVec.extractLsb' 12 4) h
    rw [extract_place_self p 12 (by omega)] at this
    rw [← this]
    ext k hk
    interval_cases k <;> simp
  · rintro rfl
    ext k hk
    rw [← BitVec.getLsbD_eq_getElem, ← BitVec.getLsbD_eq_getElem, getLsbD_place _ _ _ hk]
    interval_cases k <;> simp

theorem mask_byte (w : Word) (p : Nibble) :
    w &&& 0xFF00#16 = place p 12 ↔ w.extractLsb' 12 4 = p ∧ w.extractLsb' 8 4 = 0#4 := by
  constructor
  · intro h
    refine ⟨?_, ?_⟩
    · have := congrArg (BitVec.extractLsb' 12 4) h
      rw [extract_place_self p 12 (by omega)] at this
      rw [← this]
      ext k hk
      interval_cases k <;> simp
    · have := congrArg (BitVec.extractLsb' 8 4) h
      rw [extract_place_below p 12 8 4 (by omega) (by omega)] at this
      rw [← this]
      ext k hk
      interval_cases k <;> simp
  · rintro ⟨rfl, h⟩
    have h8 (k : Nat) (hk : k < 4) : w.getLsbD (8 + k) = false := by
      have := congrArg (fun v => v.getLsbD k) h
      simpa [hk] using this
    have h80 := h8 0 (by omega)
    have h81 := h8 1 (by omega)
    have h82 := h8 2 (by omega)
    have h83 := h8 3 (by omega)
    ext k hk
    rw [← BitVec.getLsbD_eq_getElem, ← BitVec.getLsbD_eq_getElem, getLsbD_place _ _ _ hk]
    interval_cases k <;> simp_all

/-- Where the fixed bits of a mask are zero nibbles, a word's nibbles decide the match. -/
theorem nibble_bits {w : Word} {off : Nat} (h : w.extractLsb' off 4 = 0#4) (k : Nat) (hk : k < 4) :
    w.getLsbD (off + k) = false := by
  have := congrArg (fun v => v.getLsbD k) h
  simpa [hk] using this

theorem mask_rotate (w : Word) (p : Nibble) :
    w &&& 0xF0F0#16 = place p 12 ↔ w.extractLsb' 12 4 = p ∧ w.extractLsb' 4 4 = 0#4 := by
  constructor
  · intro h
    refine ⟨?_, ?_⟩
    · have := congrArg (BitVec.extractLsb' 12 4) h
      rw [extract_place_self p 12 (by omega)] at this
      rw [← this]
      ext k hk
      interval_cases k <;> simp
    · have := congrArg (BitVec.extractLsb' 4 4) h
      rw [extract_place_below p 12 4 4 (by omega) (by omega)] at this
      rw [← this]
      ext k hk
      interval_cases k <;> simp
  · rintro ⟨rfl, h⟩
    have h0 := nibble_bits h 0 (by omega)
    have h1 := nibble_bits h 1 (by omega)
    have h2 := nibble_bits h 2 (by omega)
    have h3 := nibble_bits h 3 (by omega)
    ext k hk
    rw [← BitVec.getLsbD_eq_getElem, ← BitVec.getLsbD_eq_getElem, getLsbD_place _ _ _ hk]
    interval_cases k <;> simp_all

theorem mask_jumpIndirect (w : Word) (p : Nibble) :
    w &&& 0xFFF0#16 = place p 12 ↔
      w.extractLsb' 12 4 = p ∧ w.extractLsb' 8 4 = 0#4 ∧ w.extractLsb' 4 4 = 0#4 := by
  constructor
  · intro h
    refine ⟨?_, ?_, ?_⟩
    · have := congrArg (BitVec.extractLsb' 12 4) h
      rw [extract_place_self p 12 (by omega)] at this
      rw [← this]
      ext k hk
      interval_cases k <;> simp
    · have := congrArg (BitVec.extractLsb' 8 4) h
      rw [extract_place_below p 12 8 4 (by omega) (by omega)] at this
      rw [← this]
      ext k hk
      interval_cases k <;> simp
    · have := congrArg (BitVec.extractLsb' 4 4) h
      rw [extract_place_below p 12 4 4 (by omega) (by omega)] at this
      rw [← this]
      ext k hk
      interval_cases k <;> simp
  · rintro ⟨rfl, h, h'⟩
    have h0 := nibble_bits h 0 (by omega)
    have h1 := nibble_bits h 1 (by omega)
    have h2 := nibble_bits h 2 (by omega)
    have h3 := nibble_bits h 3 (by omega)
    have h4 := nibble_bits h' 0 (by omega)
    have h5 := nibble_bits h' 1 (by omega)
    have h6 := nibble_bits h' 2 (by omega)
    have h7 := nibble_bits h' 3 (by omega)
    ext k hk
    rw [← BitVec.getLsbD_eq_getElem, ← BitVec.getLsbD_eq_getElem, getLsbD_place _ _ _ hk]
    interval_cases k <;> simp_all

/-- Placing zeros leaves the word as it is. -/
@[simp] theorem place_zero (n off : Nat) : place (0#n) off = 0#16 := by
  simp [place]

end Sys2Proof
end

