-- ==== Sys2Proof/Laws/State.lean ====
section
/-! SUPPORT. One lemma per field per update of the state, and the register file's read after write. -/

namespace Sys2Proof.Machine

@[simp] theorem setReg_pc (s : State) (r : RegIdx) (v : Byte) : (s.setReg r v).pc = s.pc := rfl
@[simp] theorem setReg_memory (s : State) (r : RegIdx) (v : Byte) : (s.setReg r v).memory = s.memory := rfl
@[simp] theorem setReg_running (s : State) (r : RegIdx) (v : Byte) : (s.setReg r v).running = s.running := rfl
@[simp] theorem setReg_fault (s : State) (r : RegIdx) (v : Byte) : (s.setReg r v).fault = s.fault := rfl
@[simp] theorem setReg_config (s : State) (r : RegIdx) (v : Byte) : (s.setReg r v).config = s.config := rfl
@[simp] theorem setReg_load (s : State) (r : RegIdx) (v a : Byte) : (s.setReg r v).load a = s.load a := rfl

@[simp] theorem store_pc (s : State) (a v : Byte) : (s.store a v).pc = s.pc := rfl
@[simp] theorem store_regs (s : State) (a v : Byte) : (s.store a v).regs = s.regs := rfl
@[simp] theorem store_memory (s : State) (a v : Byte) : (s.store a v).memory = Memory.write s.memory a v := rfl
@[simp] theorem store_running (s : State) (a v : Byte) : (s.store a v).running = s.running := rfl
@[simp] theorem store_fault (s : State) (a v : Byte) : (s.store a v).fault = s.fault := rfl
@[simp] theorem store_config (s : State) (a v : Byte) : (s.store a v).config = s.config := rfl
@[simp] theorem store_reg (s : State) (a v : Byte) (r : RegIdx) : (s.store a v).reg r = s.reg r := rfl

@[simp] theorem setPc_pc (s : State) (p : Byte) : (s.setPc p).pc = p := rfl
@[simp] theorem setPc_regs (s : State) (p : Byte) : (s.setPc p).regs = s.regs := rfl
@[simp] theorem setPc_memory (s : State) (p : Byte) : (s.setPc p).memory = s.memory := rfl
@[simp] theorem setPc_running (s : State) (p : Byte) : (s.setPc p).running = s.running := rfl
@[simp] theorem setPc_fault (s : State) (p : Byte) : (s.setPc p).fault = s.fault := rfl
@[simp] theorem setPc_config (s : State) (p : Byte) : (s.setPc p).config = s.config := rfl
@[simp] theorem setPc_reg (s : State) (p : Byte) (r : RegIdx) : (s.setPc p).reg r = s.reg r := rfl
@[simp] theorem setPc_load (s : State) (p a : Byte) : (s.setPc p).load a = s.load a := rfl

@[simp] theorem stop_pc (s : State) : s.stop.pc = s.pc := rfl
@[simp] theorem stop_regs (s : State) : s.stop.regs = s.regs := rfl
@[simp] theorem stop_memory (s : State) : s.stop.memory = s.memory := rfl
@[simp] theorem stop_running (s : State) : s.stop.running = false := rfl
@[simp] theorem stop_fault (s : State) : s.stop.fault = s.fault := rfl
@[simp] theorem stop_config (s : State) : s.stop.config = s.config := rfl
@[simp] theorem stop_reg (s : State) (r : RegIdx) : s.stop.reg r = s.reg r := rfl
@[simp] theorem stop_load (s : State) (a : Byte) : s.stop.load a = s.load a := rfl

@[simp] theorem fail_pc (s : State) (a : Byte) (k : FaultKind) : (s.fail a k).pc = a := rfl
@[simp] theorem fail_regs (s : State) (a : Byte) (k : FaultKind) : (s.fail a k).regs = s.regs := rfl
@[simp] theorem fail_memory (s : State) (a : Byte) (k : FaultKind) : (s.fail a k).memory = s.memory := rfl
@[simp] theorem fail_running (s : State) (a : Byte) (k : FaultKind) : (s.fail a k).running = s.running := rfl
@[simp] theorem fail_fault (s : State) (a : Byte) (k : FaultKind) : (s.fail a k).fault = some k := rfl
@[simp] theorem fail_config (s : State) (a : Byte) (k : FaultKind) : (s.fail a k).config = s.config := rfl
@[simp] theorem fail_reg (s : State) (a : Byte) (k : FaultKind) (r : RegIdx) : (s.fail a k).reg r = s.reg r := rfl
@[simp] theorem fail_load (s : State) (a b : Byte) (k : FaultKind) : (s.fail a k).load b = s.load b := rfl

@[simp] theorem jumpIf_pc (s : State) (b : Bool) (p : Byte) : (s.jumpIf b p).pc = if b then p else s.pc := rfl
@[simp] theorem jumpIf_regs (s : State) (b : Bool) (p : Byte) : (s.jumpIf b p).regs = s.regs := rfl
@[simp] theorem jumpIf_memory (s : State) (b : Bool) (p : Byte) : (s.jumpIf b p).memory = s.memory := rfl
@[simp] theorem jumpIf_running (s : State) (b : Bool) (p : Byte) : (s.jumpIf b p).running = s.running := rfl
@[simp] theorem jumpIf_fault (s : State) (b : Bool) (p : Byte) : (s.jumpIf b p).fault = s.fault := rfl
@[simp] theorem jumpIf_config (s : State) (b : Bool) (p : Byte) : (s.jumpIf b p).config = s.config := rfl
@[simp] theorem jumpIf_reg (s : State) (b : Bool) (p : Byte) (r : RegIdx) : (s.jumpIf b p).reg r = s.reg r := rfl
@[simp] theorem jumpIf_load (s : State) (b : Bool) (p a : Byte) : (s.jumpIf b p).load a = s.load a := rfl

@[simp] theorem placeWord_pc (s : State) (w : Word) : (s.placeWord w).pc = s.pc := rfl
@[simp] theorem placeWord_regs (s : State) (w : Word) : (s.placeWord w).regs = s.regs := rfl
@[simp] theorem placeWord_running (s : State) (w : Word) : (s.placeWord w).running = s.running := rfl
@[simp] theorem placeWord_fault (s : State) (w : Word) : (s.placeWord w).fault = s.fault := rfl
@[simp] theorem placeWord_config (s : State) (w : Word) : (s.placeWord w).config = s.config := rfl

/-- Everything a register write can do: the written register reads as the value, every other as before. -/
theorem setReg_reg (s : State) (r q : RegIdx) (v : Byte) :
    (s.setReg r v).reg q = if q = r then v else s.reg q := by
  unfold State.reg State.setReg
  rw [Vector.getElem_set]
  by_cases h : r = q
  · simp [h]
  · have h' : r.val ≠ q.val := fun e => h (Fin.ext e)
    have h'' : q ≠ r := fun e => h e.symm
    simp [h', h'']

@[simp] theorem setReg_reg_self (s : State) (r : RegIdx) (v : Byte) : (s.setReg r v).reg r = v := by
  simp [setReg_reg]

theorem setReg_reg_of_ne (s : State) {r q : RegIdx} (v : Byte) (h : q ≠ r) : (s.setReg r v).reg q = s.reg q := by
  simp [setReg_reg, h]

end Sys2Proof.Machine
end

