-- ==== Sys2Proof/Laws/Memory.lean ====
section
/-! SUPPORT. Memory as a canonical list: what one insertion does to every address, and that every operation over memory
keeps the canonical form. -/

namespace Sys2Proof.Machine

/-- Every listed address is at least `n`: the shape of the tail of a canonical list. -/
def Memory.from (n : Nat) (m : Memory) : Prop := ∀ p ∈ m, n ≤ p.1

theorem wf_nil : Memory.wf [] = true := rfl

/-- What the canonical form says of a list with a first entry. -/
theorem wf_cons {a : Nat} {v : Byte} {m : Memory} :
    Memory.wf ((a, v) :: m) = true ↔
      a < 256 ∧ v ≠ unlistedByte ∧ Memory.from (a + 1) m ∧ Memory.wf m = true := by
  induction m generalizing a v with
  | nil => simp [Memory.wf, Memory.from]
  | cons p rest ih =>
    obtain ⟨b, u⟩ := p
    rw [Memory.wf, ih (a := b) (v := u)]
    simp only [Bool.and_eq_true, decide_eq_true_eq, ih (a := b) (v := u)]
    constructor
    · rintro ⟨⟨⟨ha, hv⟩, hab⟩, hb, hu, hr, hw⟩
      refine ⟨ha, hv, ?_, hb, hu, hr, hw⟩
      intro p hp
      rcases List.mem_cons.mp hp with rfl | hp
      · exact hab
      · exact le_trans (by omega) (hr p hp)
    · rintro ⟨ha, hv, hf, hb, hu, hr, hw⟩
      exact ⟨⟨⟨ha, hv⟩, hf (b, u) (by simp)⟩, hb, hu, hr, hw⟩

theorem from_mono {m : Memory} {n k : Nat} (h : Memory.from n m) (hk : k ≤ n) : Memory.from k m :=
  fun p hp => le_trans hk (h p hp)

/-- An address below every listed one reads as an unlisted address. -/
theorem lookup_below {m : Memory} {n a : Nat} (h : Memory.from n m) (ha : a < n) :
    Memory.lookup m a = unlistedByte := by
  induction m with
  | nil => rfl
  | cons p rest ih =>
    obtain ⟨b, u⟩ := p
    have hb : n ≤ b := h (b, u) (by simp)
    have hne : b ≠ a := by omega
    simp only [Memory.lookup, hne, if_false]
    exact ih fun q hq => h q (by simp [hq])

theorem lookup_entry_append (a : Nat) (v : Byte) (m : Memory) (b : Nat)
    (hm : b = a → Memory.lookup m a = unlistedByte) :
    Memory.lookup (Memory.entry a v ++ m) b = if b = a then v else Memory.lookup m b := by
  unfold Memory.entry
  by_cases hv : v = unlistedByte
  · by_cases hb : b = a
    · subst hb; simp [hv, hm rfl]
    · simp [hv, hb]
  · by_cases hb : b = a
    · subst hb; simp [hv, Memory.lookup]
    · have : a ≠ b := fun e => hb e.symm
      simp [hv, hb, Memory.lookup, this]

/-- Everything an insertion can do to what the addresses read as. -/
theorem lookup_insert {m : Memory} (h : Memory.wf m = true) (a b : Nat) (v : Byte) :
    Memory.lookup (Memory.insert m a v) b = if b = a then v else Memory.lookup m b := by
  induction m with
  | nil =>
    have := lookup_entry_append a v [] b (fun _ => rfl)
    simpa [Memory.insert] using this
  | cons p rest ih =>
    obtain ⟨c, u⟩ := p
    obtain ⟨_, _, hf, hw⟩ := wf_cons.mp h
    by_cases hac : a < c
    · have hz : Memory.lookup ((c, u) :: rest) a = unlistedByte := by
        have hne : c ≠ a := by omega
        simp only [Memory.lookup, hne, if_false]
        exact lookup_below hf (by omega)
      rw [Memory.insert, if_pos hac]
      exact lookup_entry_append a v _ b (fun _ => hz)
    · by_cases he : a = c
      · subst he
        rw [Memory.insert, if_neg hac, if_pos rfl,
          lookup_entry_append a v rest b (fun _ => lookup_below hf (by omega))]
        by_cases hb : b = a
        · simp [hb]
        · have : a ≠ b := fun e => hb e.symm
          simp [hb, Memory.lookup, this]
      · rw [Memory.insert, if_neg hac, if_neg he, Memory.lookup, Memory.lookup]
        by_cases hb : c = b
        · have : b ≠ a := by omega
          simp [hb, this]
        · simp [hb, ih hw]

theorem from_entry_append {a n : Nat} {v : Byte} {m : Memory} (ha : n ≤ a) (hm : Memory.from n m) :
    Memory.from n (Memory.entry a v ++ m) := by
  unfold Memory.entry
  by_cases hv : v = unlistedByte
  · simpa [hv] using hm
  · intro p hp
    simp only [hv, if_false, List.cons_append, List.nil_append, List.mem_cons] at hp
    rcases hp with rfl | hp
    · exact ha
    · exact hm p hp

theorem from_insert {m : Memory} {n a : Nat} {v : Byte} (ha : n ≤ a) (hm : Memory.from n m) :
    Memory.from n (Memory.insert m a v) := by
  induction m with
  | nil => simpa [Memory.insert] using from_entry_append (v := v) ha hm
  | cons p rest ih =>
    obtain ⟨c, u⟩ := p
    have hr : Memory.from n rest := fun q hq => hm q (by simp [hq])
    have hc : n ≤ c := hm (c, u) (by simp)
    rw [Memory.insert]
    split
    · exact from_entry_append ha hm
    · split
      · exact from_entry_append ha hr
      · intro p hp
        rcases List.mem_cons.mp hp with rfl | hp
        · exact hc
        · exact ih hr p hp

theorem wf_entry_append {a : Nat} {v : Byte} {m : Memory} (ha : a < 256) (hf : Memory.from (a + 1) m)
    (hm : Memory.wf m = true) : Memory.wf (Memory.entry a v ++ m) = true := by
  unfold Memory.entry
  by_cases hv : v = unlistedByte
  · simpa [hv] using hm
  · simp only [hv, if_false, List.cons_append, List.nil_append]
    exact wf_cons.mpr ⟨ha, hv, hf, hm⟩

/-- An insertion inside the address space keeps the canonical form. -/
theorem wf_insert {m : Memory} {a : Nat} (v : Byte) (h : Memory.wf m = true) (ha : a < 256) :
    Memory.wf (Memory.insert m a v) = true := by
  induction m with
  | nil => simpa [Memory.insert] using wf_entry_append (v := v) ha (m := []) (by simp [Memory.from]) rfl
  | cons p rest ih =>
    obtain ⟨c, u⟩ := p
    obtain ⟨hc, hu, hf, hw⟩ := wf_cons.mp h
    rw [Memory.insert]
    split
    · rename_i hac
      refine wf_entry_append ha ?_ h
      intro p hp
      rcases List.mem_cons.mp hp with rfl | hp
      · exact hac
      · exact le_trans (by omega) (hf p hp)
    · split
      · rename_i he
        exact wf_entry_append ha (he ▸ hf) hw
      · exact wf_cons.mpr ⟨hc, hu, from_insert (by omega) hf, ih hw⟩

/-- A write keeps the canonical form. -/
theorem wf_write {m : Memory} (a v : Byte) (h : Memory.wf m = true) : Memory.wf (Memory.write m a v) = true :=
  wf_insert v h a.isLt

/-- A store keeps the canonical form. -/
theorem wf_store {s : State} (a v : Byte) (h : Memory.wf s.memory = true) : Memory.wf (s.store a v).memory = true :=
  wf_write a v h

/-- Everything a store can do to what memory reads as: the stored byte, and every other as before. -/
theorem load_store {s : State} (h : Memory.wf s.memory = true) (a v b : Byte) :
    (s.store a v).load b = if b = a then v else s.load b := by
  have := lookup_insert h a.toNat b.toNat v
  simp only [BitVec.toNat_inj] at this
  exact this

/-- Placing a word keeps the canonical form. -/
theorem wf_placeWord {s : State} (w : Word) (h : Memory.wf s.memory = true) :
    Memory.wf (s.placeWord w).memory = true :=
  wf_store _ _ (wf_store _ _ h)

/-- A run of equal bytes over consecutive addresses is canonical. -/
theorem wf_map_range' (v : Byte) (hv : v ≠ unlistedByte) (n a : Nat) (h : a + n ≤ 256) :
    Memory.wf ((List.range' a n).map (fun k => (k, v))) = true := by
  induction n generalizing a with
  | zero => rfl
  | succ n ih =>
    simp only [List.range'_succ, List.map_cons]
    refine wf_cons.mpr ⟨by omega, hv, ?_, ih (a + 1) (by omega)⟩
    intro p hp
    simp only [List.mem_map, List.mem_range'_1] at hp
    obtain ⟨k, hk, rfl⟩ := hp
    exact hk.1

theorem wf_filled (v : Byte) : Memory.wf (Memory.filled v) = true := by
  unfold Memory.filled
  split
  · rfl
  · rw [List.range_eq_range']
    exact wf_map_range' v ‹_› 256 0 (by omega)

theorem wf_writeRecord {m m' : Memory} {a : Nat} {bytes : List Byte} (h : Memory.wf m = true)
    (hr : Memory.writeRecord m a bytes = some m') : Memory.wf m' = true := by
  induction bytes generalizing m a with
  | nil => simp only [Memory.writeRecord, Option.some.injEq] at hr; exact hr ▸ h
  | cons v rest ih =>
    rw [Memory.writeRecord] at hr
    split at hr
    · exact ih (wf_insert v h ‹_›) hr
    · cases hr

theorem wf_writeRecords {m m' : Memory} {records : List (Byte × List Byte)} (h : Memory.wf m = true)
    (hr : Memory.writeRecords m records = some m') : Memory.wf m' = true := by
  induction records generalizing m with
  | nil => simp only [Memory.writeRecords, Option.some.injEq] at hr; exact hr ▸ h
  | cons r rest ih =>
    obtain ⟨a, bytes⟩ := r
    rw [Memory.writeRecords] at hr
    split at hr
    · cases hr
    · exact ih (wf_writeRecord h ‹_›) hr

/-- Every image the loader's records give is canonical. -/
theorem wf_loadImage {c : Config} {records : List (Byte × List Byte)} {m : Memory}
    (h : loadImage c records = some m) : Memory.wf m = true :=
  wf_writeRecords (wf_filled _) h

/-- The reset state's memory is canonical. -/
theorem wf_reset : Memory.wf State.reset.memory = true := rfl

end Sys2Proof.Machine
end

