-- ==== Sys2Proof/Laws/PerInstr.lean ====
section
/-! SUPPORT. The statements made per instruction: each instruction encodes into an entry of the decode table, and that entry
builds the instruction back from the word (30_encoding.md R76, R84). -/

namespace Sys2Proof.Laws.EncodesInItsEntry

/-- The encoding of `i` is covered by an entry of the decode table that builds `i` from it. -/
def Statement (i : Instr) : Prop := ∃ e ∈ decodeTable, e.covers (encode i) = true ∧ e.build (encode i) = i

/-- A word of format RA or ZA: a nibble, a register and a byte. -/
theorem format_byte (p : Nibble) (r : RegIdx) (b : Byte) :
    let w := place p 12 ||| placeReg r 8 ||| place b 0
    w &&& 0xF000#16 = place p 12 ∧ regField w 8 = r ∧ byteField w = b := by
  obtain ⟨hp, hr, hb⟩ := byte_reads_back p r.toNibble b
  exact ⟨(mask_top _ p).mpr hp, congrArg RegIdx.ofNibble hr, hb⟩

/-- A word of format RST: a nibble and three registers. -/
theorem format_registers (p : Nibble) (r s t : RegIdx) :
    let w := place p 12 ||| placeReg r 8 ||| placeReg s 4 ||| placeReg t 0
    w &&& 0xF000#16 = place p 12 ∧ regField w 8 = r ∧ regField w 4 = s ∧ regField w 0 = t := by
  obtain ⟨hp, hr, hs, ht⟩ := nibbles_read_back p r.toNibble s.toNibble t.toNibble
  exact ⟨(mask_top _ p).mpr hp, congrArg RegIdx.ofNibble hr, congrArg RegIdx.ofNibble hs, congrArg RegIdx.ofNibble ht⟩

/-- A word of format ZRS: a nibble, zeros and two registers. -/
theorem format_low_registers (p : Nibble) (r s : RegIdx) :
    let w := place p 12 ||| placeReg r 4 ||| placeReg s 0
    w &&& 0xFF00#16 = place p 12 ∧ regField w 4 = r ∧ regField w 0 = s := by
  have h := nibbles_read_back p 0#4 r.toNibble s.toNibble
  simp only [place_zero, BitVec.or_zero] at h
  obtain ⟨hp, h0, hr, hs⟩ := h
  exact ⟨(mask_byte _ p).mpr ⟨hp, h0⟩, congrArg RegIdx.ofNibble hr, congrArg RegIdx.ofNibble hs⟩

theorem covers_of_eq {e : Entry} {w : Word} (h : w &&& e.mask = e.pattern) : e.covers w = true := by
  simp [Entry.covers, h]

theorem noOp : Statement (.noOp) := by
  exact ⟨decodeTable[0], List.getElem_mem _, by decide, rfl⟩

theorem loadMemory (r : RegIdx) (addr : Byte) : Statement (.loadMemory r addr) := by
  obtain ⟨hm, hr, hb⟩ := format_byte 0x1#4 r addr
  exact ⟨decodeTable[1], List.getElem_mem _, covers_of_eq hm, congrArg₂ Instr.loadMemory hr hb⟩

theorem loadValue (r : RegIdx) (imm : Byte) : Statement (.loadValue r imm) := by
  obtain ⟨hm, hr, hb⟩ := format_byte 0x2#4 r imm
  exact ⟨decodeTable[2], List.getElem_mem _, covers_of_eq hm, congrArg₂ Instr.loadValue hr hb⟩

theorem storeMemory (r : RegIdx) (addr : Byte) : Statement (.storeMemory r addr) := by
  obtain ⟨hm, hr, hb⟩ := format_byte 0x3#4 r addr
  exact ⟨decodeTable[3], List.getElem_mem _, covers_of_eq hm, congrArg₂ Instr.storeMemory hr hb⟩

theorem moveRegister (r s : RegIdx) : Statement (.moveRegister r s) := by
  obtain ⟨hm, hr, hs⟩ := format_low_registers 0x4#4 r s
  exact ⟨decodeTable[4], List.getElem_mem _, covers_of_eq hm, congrArg₂ Instr.moveRegister hr hs⟩

theorem addInteger (r s t : RegIdx) : Statement (.addInteger r s t) := by
  obtain ⟨hm, hr, hs, ht⟩ := format_registers 0x5#4 r s t
  exact ⟨decodeTable[5], List.getElem_mem _, covers_of_eq hm,
    (congrArg₂ (fun a b => Instr.addInteger a b _) hr hs).trans (congrArg (Instr.addInteger r s) ht)⟩

theorem addFloat (r s t : RegIdx) : Statement (.addFloat r s t) := by
  obtain ⟨hm, hr, hs, ht⟩ := format_registers 0x6#4 r s t
  exact ⟨decodeTable[6], List.getElem_mem _, covers_of_eq hm,
    (congrArg₂ (fun a b => Instr.addFloat a b _) hr hs).trans (congrArg (Instr.addFloat r s) ht)⟩

theorem bitwiseOr (r s t : RegIdx) : Statement (.bitwiseOr r s t) := by
  obtain ⟨hm, hr, hs, ht⟩ := format_registers 0x7#4 r s t
  exact ⟨decodeTable[7], List.getElem_mem _, covers_of_eq hm,
    (congrArg₂ (fun a b => Instr.bitwiseOr a b _) hr hs).trans (congrArg (Instr.bitwiseOr r s) ht)⟩

theorem bitwiseAnd (r s t : RegIdx) : Statement (.bitwiseAnd r s t) := by
  obtain ⟨hm, hr, hs, ht⟩ := format_registers 0x8#4 r s t
  exact ⟨decodeTable[8], List.getElem_mem _, covers_of_eq hm,
    (congrArg₂ (fun a b => Instr.bitwiseAnd a b _) hr hs).trans (congrArg (Instr.bitwiseAnd r s) ht)⟩

theorem bitwiseXor (r s t : RegIdx) : Statement (.bitwiseXor r s t) := by
  obtain ⟨hm, hr, hs, ht⟩ := format_registers 0x9#4 r s t
  exact ⟨decodeTable[9], List.getElem_mem _, covers_of_eq hm,
    (congrArg₂ (fun a b => Instr.bitwiseXor a b _) hr hs).trans (congrArg (Instr.bitwiseXor r s) ht)⟩

theorem bitwiseRotate (r : RegIdx) (amount : Nibble) : Statement (.bitwiseRotate r amount) := by
  have h := nibbles_read_back 0xA#4 r.toNibble 0#4 amount
  simp only [place_zero, BitVec.or_zero] at h
  obtain ⟨hp, hr, h0, hn⟩ := h
  exact ⟨decodeTable[10], List.getElem_mem _, covers_of_eq ((mask_rotate _ 0xA#4).mpr ⟨hp, h0⟩),
    congrArg₂ Instr.bitwiseRotate (congrArg RegIdx.ofNibble hr) hn⟩

theorem jump (addr : Byte) : Statement (.jump addr) := by
  have h := byte_reads_back 0xB#4 0#4 addr
  simp only [place_zero, BitVec.or_zero] at h
  obtain ⟨hp, h0, hb⟩ := h
  exact ⟨decodeTable[11], List.getElem_mem _, covers_of_eq ((mask_byte _ 0xB#4).mpr ⟨hp, h0⟩), congrArg Instr.jump hb⟩

theorem jumpIfEq (r : RegIdx) (addr : Byte) : Statement (.jumpIfEq r addr) := by
  obtain ⟨hm, hr, hb⟩ := format_byte 0xB#4 r addr
  exact ⟨decodeTable[12], List.getElem_mem _, covers_of_eq hm, congrArg₂ Instr.jumpIfEq hr hb⟩

theorem halt : Statement (.halt) := by
  exact ⟨decodeTable[13], List.getElem_mem _, by decide, rfl⟩

theorem loadIndirect (r s : RegIdx) : Statement (.loadIndirect r s) := by
  obtain ⟨hm, hr, hs⟩ := format_low_registers 0xD#4 r s
  exact ⟨decodeTable[14], List.getElem_mem _, covers_of_eq hm, congrArg₂ Instr.loadIndirect hr hs⟩

theorem storeIndirect (r s : RegIdx) : Statement (.storeIndirect r s) := by
  obtain ⟨hm, hr, hs⟩ := format_low_registers 0xE#4 r s
  exact ⟨decodeTable[15], List.getElem_mem _, covers_of_eq hm, congrArg₂ Instr.storeIndirect hr hs⟩

theorem jumpIndirect (t : RegIdx) : Statement (.jumpIndirect t) := by
  have h := nibbles_read_back 0xF#4 0#4 0#4 t.toNibble
  simp only [place_zero, BitVec.or_zero] at h
  obtain ⟨hp, h1, h0, ht⟩ := h
  exact ⟨decodeTable[16], List.getElem_mem _, covers_of_eq ((mask_jumpIndirect _ 0xF#4).mpr ⟨hp, h1, h0⟩),
    congrArg (fun n => Instr.jumpIndirect (RegIdx.ofNibble n)) ht⟩

theorem jumpWithTest (r : RegIdx) (x : Nibble) (t : RegIdx) : Statement (.jumpWithTest r x t) := by
  obtain ⟨hp, hr, hx, ht⟩ := nibbles_read_back 0xF#4 r.toNibble x t.toNibble
  exact ⟨decodeTable[17], List.getElem_mem _, covers_of_eq ((mask_top _ 0xF#4).mpr hp),
    (congrArg₂ (fun a b => Instr.jumpWithTest (RegIdx.ofNibble a) b _) hr hx).trans
      (congrArg (fun n => Instr.jumpWithTest r x (RegIdx.ofNibble n)) ht)⟩

end Sys2Proof.Laws.EncodesInItsEntry
end

