-- ==== Sys2Proof/Laws/Sequencing.lean ====
section
/-! SUPPORT. What the sequencer's stages, one step, and the shared operations of the meanings can answer: one lemma each,
to be cited in place of unfolding. -/

namespace Sys2Proof.Machine

/-- The three values of `seq`, as conditions on `running` and `fault`. -/
theorem seq_running_iff (s : State) : s.seq = .running ↔ s.running = true ∧ s.fault = none := by
  unfold State.seq
  cases s.running <;> cases s.fault <;> simp

theorem seq_halted_iff (s : State) : s.seq = .halted ↔ s.running = false := by
  unfold State.seq
  cases s.running <;> cases s.fault <;> simp

theorem seq_faulted_iff (s : State) (k : FaultKind) : s.seq = .faulted k ↔ s.running = true ∧ s.fault = some k := by
  unfold State.seq
  cases s.running <;> cases s.fault <;> simp

/-- Fetch: the whole of it. -/
theorem fetch_eq (s : State) :
    fetch s = if s.pc.toNat > 0xFE then .error (.fetchOutOfRange s.pc)
      else .ok (wordOfBytes (s.load s.pc) (s.load (s.pc + 1#8))) := rfl

theorem fetch_ok_iff (s : State) (w : Word) :
    fetch s = .ok w ↔ s.pc.toNat ≤ 0xFE ∧ wordOfBytes (s.load s.pc) (s.load (s.pc + 1#8)) = w := by
  rw [fetch_eq]
  split
  · simp only [reduceCtorEq, false_iff]; omega
  · simp only [Except.ok.injEq]; constructor
    · exact fun h => ⟨by omega, h⟩
    · exact fun h => h.2

theorem fetch_error_iff (s : State) (k : FaultKind) :
    fetch s = .error k ↔ s.pc = 0xFF#8 ∧ k = .fetchOutOfRange 0xFF#8 := by
  have hpc : s.pc.toNat > 0xFE ↔ s.pc = 0xFF#8 := by
    constructor
    · intro h
      apply BitVec.eq_of_toNat_eq
      have := s.pc.isLt
      simp only [BitVec.toNat_ofNat]; omega
    · rintro h; rw [h]; decide
  rw [fetch_eq]
  split
  · rename_i h
    rw [hpc] at h
    rw [h]
    simp [eq_comm]
  · rename_i h
    rw [hpc] at h
    simp [h]

theorem decodeStage_ok_iff (w : Word) (i : Instr) : decodeStage w = .ok i ↔ decode w = .op i := by
  unfold decodeStage
  split <;> simp_all

/-- The PC incrementer: the whole of it. -/
theorem pcSeq_cases (mode : PcAdvanceOverflow) (a : Byte) :
    (a.toNat ≤ 0xFD ∧ pcSeq mode a = .ok (a + 2#8))
    ∨ (0xFD < a.toNat ∧ mode = .fault ∧ pcSeq mode a = .error (.pcOverflow a))
    ∨ (0xFD < a.toNat ∧ mode = .wrap ∧ pcSeq mode a = .ok 0x00#8) := by
  unfold pcSeq
  by_cases h : a.toNat ≤ 0xFD
  · simp [h]
  · cases mode <;> simp [h] <;> omega

/-- What the stages before execute can answer when none of them fails. -/
theorem prepare_ok {s s' : State} {i : Instr} (h : prepare s = .ok (i, s')) :
    ∃ w next, fetch s = .ok w ∧ decode w = .op i ∧ pcSeq s.config.pcAdvanceOverflow s.pc = .ok next
      ∧ s' = s.setPc next := by
  unfold prepare at h
  split at h
  · cases h
  · rename_i w hf
    split at h
    · cases h
    · rename_i i' hd
      split at h
      · cases h
      · rename_i next hp
        simp only [Except.ok.injEq, Prod.mk.injEq] at h
        obtain ⟨rfl, rfl⟩ := h
        exact ⟨w, next, hf, (decodeStage_ok_iff w i').mp hd, hp, rfl⟩

/-- Which stage failed, when one did, with the stages before it passed. -/
theorem prepare_error {s : State} {k : FaultKind} (h : prepare s = .error k) :
    fetch s = .error k
    ∨ (∃ w, fetch s = .ok w ∧ decodeStage w = .error k)
    ∨ ∃ w i, fetch s = .ok w ∧ decode w = .op i ∧ pcSeq s.config.pcAdvanceOverflow s.pc = .error k := by
  unfold prepare at h
  split at h
  · rename_i k' hf
    simp only [Except.error.injEq] at h
    exact .inl (h ▸ hf)
  · rename_i w hf
    split at h
    · rename_i k' hd
      simp only [Except.error.injEq] at h
      exact .inr (.inl ⟨w, hf, h ▸ hd⟩)
    · rename_i i hd
      split at h
      · rename_i k' hp
        simp only [Except.error.injEq] at h
        exact .inr (.inr ⟨w, i, hf, (decodeStage_ok_iff w i).mp hd, h ▸ hp⟩)
      · cases h

/-- Everything a step can do: it is taken from Running only; a failing stage latches its error at the pc; else the decoded
instruction runs on the state with the pc advanced. -/
theorem step_next {s t : State} (h : step s = .next t) :
    (s.running = true ∧ s.fault = none) ∧
    ((∃ k, prepare s = .error k ∧ t = s.fail s.pc k)
      ∨ ∃ i s', prepare s = .ok (i, s') ∧ exec i s' = .next t) := by
  unfold step sequencerStep at h
  split at h
  · rename_i hr
    refine ⟨(seq_running_iff s).mp hr, ?_⟩
    unfold stepRunning at h
    split at h
    · rename_i k hp
      simp only [Host.Outcome.next.injEq] at h
      exact .inl ⟨k, hp, h.symm⟩
    · rename_i i s' hp
      exact .inr ⟨i, s', hp, h⟩
  · cases h
  · cases h

/-- A step from Running, as the stages decide it. -/
theorem step_running {s : State} (h : s.running = true ∧ s.fault = none) : step s = stepRunning s := by
  unfold step sequencerStep
  rw [(seq_running_iff s).mpr h]

/-- Everything the shifter can answer. -/
theorem shr_cases (mode : ShiftGE8) (a : Byte) (n : Nibble) :
    (n.toNat < 8 ∧ shr mode a n = .ok (a >>> n.toNat))
    ∨ (8 ≤ n.toNat ∧ mode = .zero ∧ shr mode a n = .ok 0x00#8)
    ∨ (8 ≤ n.toNat ∧ mode = .modWidth ∧ shr mode a n = .ok (a >>> (n.toNat % 8)))
    ∨ (8 ≤ n.toNat ∧ mode = .fault ∧ shr mode a n = .error (.shiftOutOfRange n)) := by
  unfold shr
  by_cases h : n.toNat < 8
  · simp [h]
  · cases mode <;> simp [h] <;> omega

/-- Everything a jump can do: the target, or the advanced pc. -/
theorem jumpIf_cases (s : State) (taken : Bool) (target : Byte) :
    (taken = true ∧ s.jumpIf taken target = s.setPc target) ∨ (taken = false ∧ s.jumpIf taken target = s) := by
  cases taken
  · exact .inr ⟨rfl, rfl⟩
  · exact .inl ⟨rfl, rfl⟩

/-- Everything an instruction can do to the state, by the shared operation it ends in. -/
theorem exec_cases (i : Instr) (s : State) :
    (exec i s = .next s)
    ∨ (∃ r v, exec i s = .next (s.setReg r v))
    ∨ (∃ a v, exec i s = .next (s.store a v))
    ∨ (∃ p, exec i s = .next (s.setPc p))
    ∨ (i = .halt ∧ exec i s = .next s.stop)
    ∨ (∃ r n, i = .bitwiseRotate r n ∧ 8 ≤ n.toNat ∧ s.config.shiftGE8 = .fault
        ∧ exec i s = .next (s.fail s.instrAddr (.shiftOutOfRange n))) := by
  have hjump (taken : Bool) (p : Byte) :
      Host.Outcome.next (s.jumpIf taken p) = (Host.Outcome.next s : Result)
      ∨ ∃ q, Host.Outcome.next (s.jumpIf taken p) = (Host.Outcome.next (s.setPc q) : Result) := by
    rcases jumpIf_cases s taken p with ⟨-, e⟩ | ⟨-, e⟩
    · exact .inr ⟨p, by rw [e]⟩
    · exact .inl (by rw [e])
  cases i with
  | noOp => exact .inl rfl
  | loadMemory r addr => exact .inr (.inl ⟨r, _, rfl⟩)
  | loadValue r imm => exact .inr (.inl ⟨r, _, rfl⟩)
  | storeMemory r addr => exact .inr (.inr (.inl ⟨_, _, rfl⟩))
  | moveRegister r d => exact .inr (.inl ⟨d, _, rfl⟩)
  | addInteger r a b => exact .inr (.inl ⟨r, _, rfl⟩)
  | addFloat r a b => exact .inr (.inl ⟨r, _, rfl⟩)
  | bitwiseOr r a b => exact .inr (.inl ⟨r, _, rfl⟩)
  | bitwiseAnd r a b => exact .inr (.inl ⟨r, _, rfl⟩)
  | bitwiseXor r a b => exact .inr (.inl ⟨r, _, rfl⟩)
  | bitwiseRotate r n =>
    simp only [exec, execBitwiseRotate]
    rcases shr_cases s.config.shiftGE8 (s.reg r) n with ⟨-, e⟩ | ⟨-, -, e⟩ | ⟨-, -, e⟩ | ⟨hn, hm, e⟩
    · exact .inr (.inl ⟨r, _, by rw [e]⟩)
    · exact .inr (.inl ⟨r, _, by rw [e]⟩)
    · exact .inr (.inl ⟨r, _, by rw [e]⟩)
    · exact .inr (.inr (.inr (.inr (.inr ⟨r, n, rfl, hn, hm, by rw [e]⟩))))
  | jump addr => exact .inr (.inr (.inr (.inl ⟨addr, rfl⟩)))
  | jumpIfEq r addr =>
    rcases hjump (s.reg r == s.reg 0) (directTarget addr) with e | e
    · exact .inl e
    · exact .inr (.inr (.inr (.inl e)))
  | halt => exact .inr (.inr (.inr (.inr (.inl ⟨rfl, rfl⟩))))
  | loadIndirect r a => exact .inr (.inl ⟨r, _, rfl⟩)
  | storeIndirect r a => exact .inr (.inr (.inl ⟨_, _, rfl⟩))
  | jumpIndirect t => exact .inr (.inr (.inr (.inl ⟨_, rfl⟩)))
  | jumpWithTest r x t =>
    rcases hjump (compareTest x (s.reg r) (s.reg 0)) (indirectTarget s t) with e | e
    · exact .inl e
    · exact .inr (.inr (.inr (.inl e)))

end Sys2Proof.Machine
end

