-- ==== Sys2Proof/Machine/Assembly.lean ====
section
/-! DEFINITION. The spec's own assembly syntax for an instruction (30_encoding.md R92, D15; log 22). It is never input to the
core: no meaning uses it. -/

namespace Sys2Proof

/-- The mnemonic: the Operation's variant name (R92). -/
def Instr.mnemonic : Instr → String
  | .noOp => "NoOp"
  | .loadMemory _ _ => "LoadMemory"
  | .loadValue _ _ => "LoadValue"
  | .storeMemory _ _ => "StoreMemory"
  | .moveRegister _ _ => "MoveRegister"
  | .addInteger _ _ _ => "AddInteger"
  | .addFloat _ _ _ => "AddFloat"
  | .bitwiseOr _ _ _ => "BitwiseOr"
  | .bitwiseAnd _ _ _ => "BitwiseAnd"
  | .bitwiseXor _ _ _ => "BitwiseXor"
  | .bitwiseRotate _ _ => "BitwiseRotate"
  | .jump _ => "Jump"
  | .jumpIfEq _ _ => "JumpIfEq"
  | .halt => "Halt"
  | .loadIndirect _ _ => "LoadIndirect"
  | .storeIndirect _ _ => "StoreIndirect"
  | .jumpIndirect _ => "JumpIndirect"
  | .jumpWithTest _ _ _ => "JumpWithTest"

/-- A number 0..15 in decimal. -/
def decimal (n : Nat) : String :=
  ["0", "1", "2", "3", "4", "5", "6", "7", "8", "9", "10", "11", "12", "13", "14", "15"].getD n ""

/-- A hexadecimal digit. -/
def hexDigit (n : Nat) : String :=
  ["0", "1", "2", "3", "4", "5", "6", "7", "8", "9", "A", "B", "C", "D", "E", "F"].getD n ""

/-- A register: `R0` to `R15` (R92). -/
def asmReg (r : RegIdx) : String := "R" ++ decimal r.val

/-- An `addr` or `imm`: `0xHH` (R92). -/
def asmByte (b : Byte) : String := "0x" ++ hexDigit (b.toNat / 16) ++ hexDigit (b.toNat % 16)

/-- A selector: one of EQ, NE, GE, LE, GT, LT for codes 0 to 5, else a decimal number (R92). -/
def asmSelector (x : Nibble) : String := ["EQ", "NE", "GE", "LE", "GT", "LT"].getD x.toNat (decimal x.toNat)

/-- The operands, in the payload order of R77. -/
def Instr.asmOperands : Instr → List String
  | .noOp => []
  | .loadMemory r addr => [asmReg r, asmByte addr]
  | .loadValue r imm => [asmReg r, asmByte imm]
  | .storeMemory r addr => [asmReg r, asmByte addr]
  | .moveRegister r s => [asmReg r, asmReg s]
  | .addInteger r s t => [asmReg r, asmReg s, asmReg t]
  | .addFloat r s t => [asmReg r, asmReg s, asmReg t]
  | .bitwiseOr r s t => [asmReg r, asmReg s, asmReg t]
  | .bitwiseAnd r s t => [asmReg r, asmReg s, asmReg t]
  | .bitwiseXor r s t => [asmReg r, asmReg s, asmReg t]
  | .bitwiseRotate r amount => [asmReg r, decimal amount.toNat]
  | .jump addr => [asmByte addr]
  | .jumpIfEq r addr => [asmReg r, asmByte addr]
  | .halt => []
  | .loadIndirect r s => [asmReg r, asmReg s]
  | .storeIndirect r s => [asmReg r, asmReg s]
  | .jumpIndirect t => [asmReg t]
  | .jumpWithTest r x t => [asmReg r, asmSelector x, asmReg t]

/-- Operands separated by commas (R92). -/
def joinOperands : List String → String
  | [] => ""
  | [a] => " " ++ a
  | a :: b :: rest => " " ++ a ++ "," ++ joinOperands (b :: rest)

/-- The assembly text of an instruction (R92). -/
def Instr.assembly (i : Instr) : String := i.mnemonic ++ joinOperands i.asmOperands

end Sys2Proof
end

