-- ==== Sys2Proof/Tests/Slice0.lean ====
section
/-! SUPPORT. Tests of the model on values from spec/95_test_vectors.md (the vector is named in each comment), the smoke test
of WellFormed, and for every statement with hypotheses a state and operands that meet them. -/

namespace Sys2Proof.Tests

open Sys2Proof Sys2Proof.Machine

/-- The next state or burst of an outcome, if there is one. -/
def nextOf {σ φ ρ : Type} (r : Host.Outcome σ φ ρ) : Option σ :=
  match r with
  | .next t => some t
  | .fault _ => none
  | .refused _ => none

/-- What a test on the next state says of the outcome. -/
theorem next_of_any {σ φ ρ : Type} {r : Host.Outcome σ φ ρ} {p : σ → Bool} (h : (nextOf r).any p = true) :
    ∃ t : σ, r = .next t ∧ p t = true := by
  cases r with
  | next t => exact ⟨t, rfl, by simpa [nextOf] using h⟩
  | fault k => simp [nextOf] at h
  | refused k => simp [nextOf] at h

/-- Reset with the pc at `a` and the word `w` there. -/
def placedAt (a : Byte) (w : Word) : State := (State.reset.setPc a).placeWord w

/-- The vectors of V7 start with the word at 0x10. -/
def at10 (w : Word) : State := placedAt 0x10#8 w

/-- The view `f` of the state after one step. -/
def afterStep {α : Type} (s : State) (f : State → α) : Option α := (nextOf (step s)).map f

/-- `s` with other parameters. -/
def withConfig (s : State) (c : Config) : State := { s with config := c }

/-! ## WellFormed: each check refuses an ill-formed term (30_encoding.md R85) -/

theorem test_wellFormed_refuses_jumpIfEq_zero : (Instr.jumpIfEq 0 0x20#8).wellFormed = false := by decide
theorem test_wellFormed_refuses_jumpWithTest_zero_zero : (Instr.jumpWithTest 0 0#4 7).wellFormed = false := by decide
theorem test_wellFormed_accepts : (Instr.jumpIfEq 1 0x20#8).wellFormed = true
    ∧ (Instr.jumpWithTest 0 1#4 7).wellFormed = true ∧ (Instr.jumpWithTest 1 0#4 7).wellFormed = true := by decide

/-! ## Decode: one word per constructor, written out from the encodings of R74 -/

theorem test_decode_noOp : decode 0b0000111111111111#16 = .op .noOp := by decide
theorem test_decode_loadMemory : decode 0b0001001101000000#16 = .op (.loadMemory 3 0x40#8) := by decide
theorem test_decode_loadValue : decode 0b0010101000000101#16 = .op (.loadValue 10 0x05#8) := by decide
theorem test_decode_storeMemory : decode 0b0011010011110000#16 = .op (.storeMemory 4 0xF0#8) := by decide
theorem test_decode_moveRegister : decode 0b0100000000111100#16 = .op (.moveRegister 3 12) := by decide
theorem test_decode_addInteger : decode 0b0101000100100011#16 = .op (.addInteger 1 2 3) := by decide
theorem test_decode_addFloat : decode 0b0110000000010010#16 = .op (.addFloat 0 1 2) := by decide
theorem test_decode_bitwiseOr : decode 0b0111001100010010#16 = .op (.bitwiseOr 3 1 2) := by decide
theorem test_decode_bitwiseAnd : decode 0b1000101010111100#16 = .op (.bitwiseAnd 10 11 12) := by decide
theorem test_decode_bitwiseXor : decode 0b1001001100010010#16 = .op (.bitwiseXor 3 1 2) := by decide
theorem test_decode_bitwiseRotate : decode 0b1010010000001001#16 = .op (.bitwiseRotate 4 9#4) := by decide
theorem test_decode_jump : decode 0b1011000011111101#16 = .op (.jump 0xFD#8) := by decide
theorem test_decode_jumpIfEq : decode 0b1011001100010000#16 = .op (.jumpIfEq 3 0x10#8) := by decide
theorem test_decode_halt : decode 0b1100000000000000#16 = .op .halt := by decide
theorem test_decode_loadIndirect : decode 0b1101000001000001#16 = .op (.loadIndirect 4 1) := by decide
theorem test_decode_storeIndirect : decode 0b1110000010101011#16 = .op (.storeIndirect 10 11) := by decide
theorem test_decode_jumpIndirect : decode 0b1111000000000111#16 = .op (.jumpIndirect 7) := by decide
theorem test_decode_jumpWithTest : decode 0b1111001001001001#16 = .op (.jumpWithTest 2 4#4 9) := by decide
/-- V1: the null word, and invalid words next to valid ones. -/
theorem test_decode_rejects_by_name : decode 0x0000#16 = .nullInstruction
    ∧ decode 0x0FFE#16 = .invalidInstruction 0x0FFE#16 ∧ decode 0x4100#16 = .invalidInstruction 0x4100#16
    ∧ decode 0xAFF0#16 = .invalidInstruction 0xAFF0#16 ∧ decode 0xC001#16 = .invalidInstruction 0xC001#16
    ∧ decode 0xD100#16 = .invalidInstruction 0xD100#16 ∧ decode 0xEF00#16 = .invalidInstruction 0xEF00#16 := by decide
/-- V2: encodings, the two exceptional forms among them. -/
theorem test_encode : encode (.loadValue 10 0x05#8) = 0x2A05#16 ∧ encode (.moveRegister 3 12) = 0x403C#16
    ∧ encode (.jumpIfEq 0 0x20#8) = 0xB020#16 ∧ encode (.jumpIfEq 5 0x20#8) = 0xB520#16
    ∧ encode (.jumpWithTest 0 0#4 7) = 0xF007#16 ∧ encode (.jumpWithTest 2 4#4 9) = 0xF249#16
    ∧ encode (.storeIndirect 4 2) = 0xE042#16 := by decide
theorem test_decodeTableWord : decodeTableWord 16 0x5123 = some (.addInteger 1 2 3)
    ∧ decodeTableWord 16 0x0000 = none ∧ decodeTableWord 16 0x4100 = none := by decide
/-- The first step after reset runs the placed word, whose high byte is at the lower address (R53). -/
theorem test_withFetchWord : afterStep (State.reset.withFetchWord 16 0x2A05) (fun t => (t.pc, t.reg 10)) = some (2#8, 5#8)
    ∧ (State.reset.withFetchWord 16 0x2A05).memory = [(0, 0x2A#8), (1, 0x05#8)] := by decide

/-! ## One step of each instruction (V7) -/

theorem test_noOp : nextOf (step (at10 0x0FFF#16)) = some ((at10 0x0FFF#16).setPc 0x12#8) := by decide
theorem test_loadMemory : afterStep ((at10 0x13FF#16).store 0xFF#8 0x5A#8) (fun t => (t.pc, t.reg 3)) = some (0x12#8, 0x5A#8) := by
  decide
theorem test_loadMemory_own_byte : afterStep (at10 0x1310#16) (fun t => t.reg 3) = some 0x13#8 := by decide
theorem test_loadValue : afterStep (at10 0x2A05#16) (fun t => (t.pc, t.reg 10, t.reg 0)) = some (0x12#8, 5#8, 0#8) := by decide
theorem test_loadValue_r0 : afterStep (at10 0x20FF#16) (fun t => t.reg 0) = some 0xFF#8 := by decide
theorem test_storeMemory : afterStep ((at10 0x3480#16).setReg 4 0x77#8) (fun t => (t.pc, t.load 0x80#8)) = some (0x12#8, 0x77#8) := by
  decide
theorem test_storeMemory_own_byte : afterStep ((at10 0x3411#16).setReg 4 0x99#8) (fun t => (t.pc, t.load 0x11#8))
    = some (0x12#8, 0x99#8) := by decide
theorem test_loadIndirect : afterStep (((at10 0xD041#16).setReg 1 0x40#8).store 0x40#8 0xCD#8) (fun t => (t.reg 4, t.reg 1))
    = some (0xCD#8, 0x40#8) := by decide
theorem test_loadIndirect_same : afterStep (((at10 0xD011#16).setReg 1 0x40#8).store 0x40#8 0xCD#8) (fun t => t.reg 1)
    = some 0xCD#8 := by decide
theorem test_storeIndirect : afterStep (((at10 0xE042#16).setReg 4 0xEE#8).setReg 2 0x50#8)
    (fun t => (t.load 0x50#8, t.load 0xEE#8)) = some (0xEE#8, 0x00#8) := by decide
theorem test_storeIndirect_same : afterStep ((at10 0xE022#16).setReg 2 0x50#8) (fun t => t.load 0x50#8) = some 0x50#8 := by
  decide
theorem test_moveRegister : afterStep (((at10 0x403C#16).setReg 3 0x12#8).setReg 12 0x34#8) (fun t => (t.reg 12, t.reg 3))
    = some (0x12#8, 0x12#8) := by decide
theorem test_addInteger : afterStep (((at10 0x5123#16).setReg 2 0x7F#8).setReg 3 1#8) (fun t => t.reg 1) = some 0x80#8 := by
  decide
theorem test_addInteger_same : afterStep ((at10 0x5111#16).setReg 1 0x80#8) (fun t => t.reg 1) = some 0x00#8 := by decide
theorem test_addFloat : afterStep (((at10 0x6012#16).setReg 1 0x48#8).setReg 2 0x48#8) (fun t => t.reg 0) = some 0x58#8 := by
  decide
theorem test_bitwiseOr : afterStep (((at10 0x7123#16).setReg 2 0xF0#8).setReg 3 0x0F#8) (fun t => t.reg 1) = some 0xFF#8 := by
  decide
theorem test_bitwiseAnd : afterStep (((at10 0x8123#16).setReg 2 0xCC#8).setReg 3 0xAA#8) (fun t => t.reg 1) = some 0x88#8 := by
  decide
theorem test_bitwiseXor : afterStep (((at10 0x9122#16).setReg 1 0x33#8).setReg 2 0x5A#8) (fun t => t.reg 1) = some 0x00#8 := by
  decide
theorem test_bitwiseRotate : afterStep ((at10 0xA401#16).setReg 4 0x80#8) (fun t => t.reg 4) = some 0x40#8 := by decide
theorem test_bitwiseRotate_by_15 : afterStep ((at10 0xA40F#16).setReg 4 0xFF#8) (fun t => t.reg 4) = some 0x00#8 := by decide
theorem test_jump : afterStep (at10 0xB004#16) State.pc = some 0x04#8 := by decide
theorem test_jumpIfEq_taken : afterStep (((at10 0xB540#16).setReg 5 7#8).setReg 0 7#8) State.pc = some 0x40#8 := by decide
theorem test_jumpIfEq_not_taken : afterStep (((at10 0xB540#16).setReg 5 7#8).setReg 0 8#8) State.pc = some 0x12#8 := by decide
theorem test_jumpIndirect_odd : afterStep ((at10 0xF007#16).setReg 7 0x33#8) State.pc = some 0x33#8 := by decide
theorem test_jumpWithTest_unsigned : afterStep ((((at10 0xF249#16).setReg 2 0x90#8).setReg 0 0x7F#8).setReg 9 0x60#8) State.pc
    = some 0x60#8 := by decide
theorem test_jumpWithTest_never : afterStep ((((at10 0xF269#16).setReg 2 0x7F#8).setReg 0 0x7F#8).setReg 9 0x60#8) State.pc
    = some 0x12#8 := by decide
theorem test_halt : afterStep (at10 0xC000#16) (fun t => (t.pc, t.running, t.fault)) = some (0x12#8, false, none) := by decide

/-! ## The ALU, the comparator, faults and fuel (V3, V4, V5, V6, V8) -/

theorem test_addInt : addInt 0x80#8 0xFF#8 = 0x7F#8 ∧ addInt 0xFF#8 0xFF#8 = 0xFE#8 ∧ addInt 0xC8#8 0x9C#8 = 0x64#8 := by decide
theorem test_shr_by_mode : shr .zero 0xA5#8 12#4 = .ok 0x00#8 ∧ shr .modWidth 0xA5#8 12#4 = .ok 0x0A#8
    ∧ shr .fault 0xA5#8 12#4 = .error (.shiftOutOfRange 12#4) ∧ shr .fault 0xFF#8 7#4 = .ok 0x01#8
    ∧ shr .modWidth 0xFF#8 15#4 = .ok 0x01#8 := by decide
theorem test_addFloat_exact : addFloat 0x18#8 0x9C#8 = 0x88#8 ∧ addFloat 0x87#8 0x00#8 = 0x87#8
    ∧ addFloat 0x0F#8 0x01#8 = 0x18#8 ∧ addFloat 0x21#8 0x00#8 = 0x04#8 ∧ addFloat 0x47#8 0x00#8 = 0x3E#8 := by decide
theorem test_addFloat_truncates : addFloat 0x3F#8 0x01#8 = 0x3F#8 ∧ addFloat 0x35#8 0x13#8 = 0x2B#8
    ∧ addFloat 0x77#8 0x01#8 = 0x6E#8 ∧ addFloat 0x7F#8 0x08#8 = 0x7F#8 := by decide
theorem test_addFloat_saturates : addFloat 0x78#8 0x78#8 = 0x7F#8 ∧ addFloat 0xFF#8 0xFF#8 = 0xFF#8
    ∧ addFloat 0x77#8 0x77#8 = 0x7E#8 ∧ addFloat 0x6F#8 0x6F#8 = 0x7F#8 := by decide
theorem test_addFloat_zero : addFloat 0x80#8 0x80#8 = 0x00#8 ∧ addFloat 0x15#8 0x95#8 = 0x00#8
    ∧ addFloat 0xF8#8 0x78#8 = 0x00#8 ∧ addFloat 0x70#8 0x00#8 = 0x00#8 := by decide
theorem test_compare : compareTest 2#4 0x80#8 0x7F#8 = true ∧ compareTest 3#4 0x80#8 0x7F#8 = false
    ∧ compareTest 4#4 0x20#8 0x20#8 = false ∧ compareTest 5#4 0x10#8 0x20#8 = true
    ∧ compareTest 1#4 0x30#8 0x20#8 = true ∧ compareTest 15#4 0x20#8 0x20#8 = false := by decide
/-- S1: the null word at reset; the fault is latched and no fuel is used. -/
theorem test_null_at_reset : nextOf (run 5 State.reset)
    = some ⟨State.reset.fail 0x00#8 .nullInstruction, 5, .fatal .nullInstruction⟩ := by decide
/-- S4, S6, S8: the two ends of memory. -/
theorem test_fetch_out_of_range : nextOf (step (State.reset.setPc 0xFF#8))
    = some { State.reset.setPc 0xFF#8 with fault := some (.fetchOutOfRange 0xFF#8) } := by decide
theorem test_pc_overflow : nextOf (step (placedAt 0xFE#8 0xC000#16))
    = some { placedAt 0xFE#8 0xC000#16 with fault := some (.pcOverflow 0xFE#8) } := by decide
/-- S7, S9: the same Halt under `PC_ADVANCE_OVERFLOW = Wrap`. -/
theorem test_pc_wraps : afterStep (withConfig (placedAt 0xFE#8 0xC000#16) { pcAdvanceOverflow := .wrap })
    (fun t => (t.pc, t.running, t.fault)) = some (0x00#8, false, none) := by decide
/-- S14: the shift fault is precise. -/
theorem test_shift_fault : nextOf (step (withConfig (at10 0xA108#16) { shiftGE8 := .fault }))
    = some { withConfig (at10 0xA108#16) { shiftGE8 := .fault } with fault := some (.shiftOutOfRange 8#4) } := by decide
/-- S12: a Halt with its fuel, charged and not; S17: a fetch at an odd address. -/
theorem test_halt_fuel : (nextOf (run 5 (at10 0xC000#16))).map (fun b => (b.unused, b.signal)) = some (4, .haltExecution)
    ∧ (nextOf (run 5 (withConfig (at10 0xC000#16) { haltConsumesFuel := false }))).map (fun b => (b.unused, b.signal))
      = some (5, .haltExecution) := by decide
theorem test_odd_fetch : afterStep (placedAt 0x03#8 0x2199#16) (fun t => (t.pc, t.reg 1)) = some (0x05#8, 0x99#8) := by decide
/-- E8: the line "10 ABCD". -/
theorem test_loader_record : loadImage Config.spec [(0x10#8, [0xAB#8, 0xCD#8])] = some [(0x10, 0xAB#8), (0x11, 0xCD#8)] := by
  decide
theorem test_loader_overrun : loadImage Config.spec [(0xFF#8, [0xAB#8, 0xCD#8])] = none := by decide
/-- R92's table, and R85's exceptional form as it is written. -/
theorem test_assembly : Instr.assembly (.moveRegister 3 12) = "MoveRegister R3, R12"
    ∧ Instr.assembly (.jumpWithTest 2 4#4 9) = "JumpWithTest R2, GT, R9"
    ∧ Instr.assembly (.loadValue 10 0x05#8) = "LoadValue R10, 0x05" ∧ Instr.assembly .halt = "Halt" := by decide
theorem test_fault_codes : FaultKind.code .nullInstruction = 1 ∧ FaultKind.code (.invalidInstruction 0#16) = 2
    ∧ FaultKind.code (.fetchOutOfRange 0#8) = 3 ∧ FaultKind.code (.pcOverflow 0#8) = 4
    ∧ FaultKind.code (.shiftOutOfRange 0#4) = 5 := by decide

/-! ## Witnesses: for each statement with hypotheses, a state and operands that meet them, at the boundary of each clause -/

theorem witness_EncodeOfDecodedIsTheWord : decode 0xFFFF#16 = .op (.jumpWithTest 15 15#4 15) := by decide
theorem witness_DecodeOfEncodedIsTheInstruction : (Instr.jumpIfEq 1 0x00#8).wellFormed = true
    ∧ (Instr.jumpWithTest 0 1#4 0).wellFormed = true ∧ Instr.halt.wellFormed = true := by decide
theorem witness_DecodedInstructionsAreWellFormed : decode 0xB100#16 = .op (.jumpIfEq 1 0x00#8)
    ∧ decode 0xF010#16 = .op (.jumpWithTest 0 1#4 0) ∧ decode 0xF100#16 = .op (.jumpWithTest 1 0#4 0) := by decide
theorem witness_OpcodeMapByNibble : 0xB100 < 65536 ∧ 0xF010 < 65536 ∧ 0x0FFF < 65536 ∧ 65535 < 65536 := by decide
theorem witness_DecodeIsFirstMatch : 0xB004#16 ≠ 0x0000#16 ∧ decode 0xB004#16 = .op (.jump 0x04#8)
    ∧ 0x4100#16 ≠ 0x0000#16 ∧ decode 0x4100#16 = .invalidInstruction 0x4100#16 := by decide
theorem witness_IllegalWordsAreTheListedOnes : 0x0FFE < 65536
    ∧ decode (BitVec.ofNat 16 0x0FFE) = .invalidInstruction (BitVec.ofNat 16 0x0FFE)
    ∧ decode (BitVec.ofNat 16 0x0FFF) ≠ .invalidInstruction (BitVec.ofNat 16 0x0FFF) := by decide
theorem witness_ReadReturnsTheLatestWrite : Memory.wf [(0x00, 0x01#8), (0x40, 0xAB#8), (0xFF, 0x02#8)] = true := by decide
theorem witness_MemoryAccessesAreIdempotent : Memory.wf [(0x40, 0xAB#8), (0xFF, 0x02#8)] = true := by decide
theorem witness_EqualReadsMeanEqualMemories : Memory.wf [(0x40, 0xAB#8)] = true
    ∧ ∀ a : Byte, Memory.read [(0x40, 0xAB#8)] a = Memory.read [(0x40, 0xAB#8)] a := ⟨by decide, fun _ => rfl⟩
theorem witness_FetchIsBigEndian : (placedAt 0xFE#8 0xC000#16).pc.toNat ≤ 0xFE := by decide
theorem witness_StoreIsSeenByTheNextFetch : Memory.wf (placedAt 0xFE#8 0xC000#16).memory = true
    ∧ (placedAt 0xFE#8 0xC000#16).pc.toNat ≤ 0xFE := by decide
theorem witness_OnlyTheseOperationsReachMemory_fetch :
    Memory.read [(0x10, 0x0F#8), (0x11, 0xFF#8), (0x12, 0x01#8)] (at10 0x0FFF#16).pc = (at10 0x0FFF#16).load (at10 0x0FFF#16).pc
    ∧ Memory.read [(0x10, 0x0F#8), (0x11, 0xFF#8), (0x12, 0x01#8)] ((at10 0x0FFF#16).pc + 1#8)
      = (at10 0x0FFF#16).load ((at10 0x0FFF#16).pc + 1#8) := by decide
theorem witness_OnlyTheseOperationsReachMemory_loads :
    (∃ t, exec (.loadMemory 3 0x10#8) (at10 0x0FFF#16) = .next t ∧ (t.reg 3 == 0x0F#8) = true)
    ∧ Memory.read [(0x10, 0x0F#8)] (directAddr 0x10#8) = (at10 0x0FFF#16).load (directAddr 0x10#8)
    ∧ (∃ t, exec (.loadIndirect 3 0) (at10 0x0FFF#16) = .next t ∧ (t.reg 3 == 0x00#8) = true)
    ∧ Memory.read [(0x10, 0x0F#8)] (indirectAddr (at10 0x0FFF#16) 0)
      = (at10 0x0FFF#16).load (indirectAddr (at10 0x0FFF#16) 0) :=
  ⟨next_of_any (p := fun t : State => t.reg 3 == 0x0F#8) (by decide), by decide,
    next_of_any (p := fun t : State => t.reg 3 == 0x00#8) (by decide), by decide⟩
theorem witness_OnlyTheseOperationsReachMemory_stores :
    Memory.wf State.reset.memory = true
    ∧ (∃ t, exec (.storeMemory 3 0x10#8) State.reset = .next t ∧ t.running = true)
    ∧ (∃ t, exec (.storeIndirect 3 4) State.reset = .next t ∧ t.running = true)
    ∧ indirectAddr State.reset 4 = 0x00#8 :=
  ⟨by decide, next_of_any (p := State.running) (by decide), next_of_any (p := State.running) (by decide), by decide⟩
theorem witness_StoreMemoryStoresTheRegister : Memory.wf (at10 0x3411#16).memory = true := by decide
theorem witness_StoreIndirectStoresTheRegister : Memory.wf (at10 0xE022#16).memory = true := by decide
theorem witness_AddFloatTruncatesAndSaturates : fdec 0x15#8 + fdec 0x95#8 = 0 ∧ (fdec 0x87#8 + fdec 0x00#8).natAbs = 7
    ∧ (fdec 0x18#8 + fdec 0x9C#8).natAbs = 8 ∧ (fdec 0x7F#8 + fdec 0x3F#8).natAbs = 2040
    ∧ (fdec 0x78#8 + fdec 0x78#8).natAbs = 2048 := by decide
theorem witness_ShifterIsLogicalBelowEight : (7#4).toNat < 8 ∧ (0#4).toNat < 8 := by decide
theorem witness_BitwiseRotateShiftsTheRegister : (7#4).toNat < 8 ∧ ¬ (8#4).toNat < 8
    ∧ (withConfig State.reset { shiftGE8 := .zero }).config.shiftGE8 ≠ .fault
    ∧ (withConfig State.reset { shiftGE8 := .modWidth }).config.shiftGE8 ≠ .fault := by decide
theorem witness_ShiftOutOfRangeIsLatched : 8 ≤ (8#4).toNat
    ∧ (withConfig State.reset { shiftGE8 := .fault }).config.shiftGE8 = .fault := by decide
theorem witness_PcAdvancesByTwo : (0xFD#8).toNat ≤ 0xFD ∧ ¬ (0xFE#8).toNat ≤ 0xFD := by decide
theorem witness_JumpIfEqJumpsOnEquality : (1 : RegIdx) ≠ 0 ∧ State.reset.reg 1 = State.reset.reg 0
    ∧ (State.reset.setReg 1 1#8).reg 1 ≠ (State.reset.setReg 1 1#8).reg 0 := by decide
theorem witness_JumpIndirectSetsThePcFromARegister : (State.reset.setReg 7 0xFF#8).reg 7 = 0xFF#8 := by decide
theorem witness_JumpWithTestJumpsWhereTheTestHolds : ¬ ((0 : RegIdx) = 0 ∧ 1#4 = 0#4) ∧ ¬ ((1 : RegIdx) = 0 ∧ 0#4 = 0#4) := by
  decide
theorem witness_NoOpOnlyAdvancesThePc :
    ((placedAt 0xFD#8 0x0FFF#16).isRunning ∧ (placedAt 0xFD#8 0x0FFF#16).wordAtPc = 0x0FFF#16
      ∧ (placedAt 0xFD#8 0x0FFF#16).pc.toNat ≤ 0xFD)
    ∧ (placedAt 0xFE#8 0x0FFF#16).isRunning ∧ (placedAt 0xFE#8 0x0FFF#16).wordAtPc = 0x0FFF#16
      ∧ (placedAt 0xFE#8 0x0FFF#16).pc = 0xFE#8 ∧ (placedAt 0xFE#8 0x0FFF#16).config.pcAdvanceOverflow = .fault := by decide
theorem witness_HaltStopsTheRun : (placedAt 0xFD#8 0xC000#16).isRunning ∧ (placedAt 0xFD#8 0xC000#16).wordAtPc = 0xC000#16
    ∧ (placedAt 0xFD#8 0xC000#16).pc.toNat ≤ 0xFD := by decide
theorem witness_StepRunsTheDecodedInstruction :
    ((placedAt 0xFD#8 0x2A05#16).isRunning ∧ (placedAt 0xFD#8 0x2A05#16).pc.toNat ≤ 0xFE
      ∧ decode (placedAt 0xFD#8 0x2A05#16).wordAtPc = .op (.loadValue 10 5#8) ∧ (Instr.loadValue 10 5#8).wellFormed = true
      ∧ pcSeq (placedAt 0xFD#8 0x2A05#16).config.pcAdvanceOverflow (placedAt 0xFD#8 0x2A05#16).pc = .ok 0xFF#8)
    ∧ decode (placedAt 0xFE#8 0x2A05#16).wordAtPc = .op (.loadValue 10 5#8)
      ∧ pcSeq .wrap (placedAt 0xFE#8 0x2A05#16).pc = .ok 0x00#8 := by decide
theorem witness_FatalErrorsArePreciseAndOrdered_decode :
    ((State.reset.setPc 0xFF#8).isRunning ∧ (State.reset.setPc 0xFF#8).pc = 0xFF#8)
    ∧ ((State.reset.setPc 0xFE#8).isRunning ∧ (State.reset.setPc 0xFE#8).wordAtPc = 0x0000#16
      ∧ (State.reset.setPc 0xFE#8).pc.toNat ≤ 0xFE)
    ∧ (placedAt 0xFE#8 0xC001#16).isRunning
      ∧ decode (placedAt 0xFE#8 0xC001#16).wordAtPc = .invalidInstruction 0xC001#16 := by decide
theorem witness_FatalErrorsArePreciseAndOrdered_advance :
    ((placedAt 0xFE#8 0xC000#16).isRunning ∧ (placedAt 0xFE#8 0xC000#16).pc = 0xFE#8
      ∧ decode (placedAt 0xFE#8 0xC000#16).wordAtPc = .op .halt)
    ∧ (withConfig (placedAt 0xFE#8 0xA108#16) { shiftGE8 := .fault, pcAdvanceOverflow := .wrap }).isRunning
      ∧ decode (withConfig (placedAt 0xFE#8 0xA108#16) { shiftGE8 := .fault, pcAdvanceOverflow := .wrap }).wordAtPc
        = .op (.bitwiseRotate 1 8#4)
      ∧ decode (placedAt 0xFD#8 0xA108#16).wordAtPc = .op (.bitwiseRotate 1 8#4) := by decide
theorem witness_RunningAlwaysSteps : State.reset.isRunning := by decide
theorem witness_StoppedContextTakesNoStep : State.reset.stop.running = false
    ∧ (State.reset.fail 0x00#8 .nullInstruction).isFaulted .nullInstruction := by decide
theorem witness_OnlyHaltClearsRunning :
    (∃ t, exec .halt State.reset = .next t ∧ (!t.running) = true) ∧ Instr.noOp ≠ .halt
    ∧ (∃ t, exec .noOp State.reset = .next t ∧ t.running = true)
    ∧ ∃ t, step (at10 0xC000#16) = .next t ∧ (!t.running) = true :=
  ⟨next_of_any (p := fun t : State => !t.running) (by decide), by decide, next_of_any (p := State.running) (by decide),
    next_of_any (p := fun t : State => !t.running) (by decide)⟩
theorem witness_FaultLatchIsFinal :
    (∃ t, step State.reset = .next t ∧ (t.fault == some .nullInstruction) = true)
    ∧ (∃ t, exec .noOp State.reset = .next t ∧ (t.fault == State.reset.fault) = true)
    ∧ ∃ t, exec (.bitwiseRotate 1 8#4) (withConfig State.reset { shiftGE8 := .fault }) = .next t
      ∧ (t.fault == some (.shiftOutOfRange 8#4)) = true :=
  ⟨next_of_any (p := fun t : State => t.fault == some .nullInstruction) (by decide),
    next_of_any (p := fun t : State => t.fault == State.reset.fault) (by decide),
    next_of_any (p := fun t : State => t.fault == some (.shiftOutOfRange 8#4)) (by decide)⟩
theorem witness_ParametersNeverChange : ∃ t, step (at10 0x0FFF#16) = .next t ∧ t.running = true :=
  next_of_any (p := State.running) (by decide)
theorem witness_RegisterFootprintIsTheTable :
    (∃ t, exec (.addInteger 1 2 3) State.reset = .next t ∧ t.running = true)
    ∧ (Instr.addInteger 1 2 3).regWritten ≠ some 2
    ∧ ∀ q ∈ (Instr.addInteger 1 2 3).regsRead, ((State.reset.setReg 9 1#8).regs)[q.val] = State.reset.reg q :=
  ⟨next_of_any (p := State.running) (by decide), by decide, by decide⟩
theorem witness_OnlyJumpsRedirectThePc :
    (∃ t, exec (.jump 0x33#8) State.reset = .next t ∧ (t.fault == State.reset.fault) = true)
    ∧ (∃ t, exec (.bitwiseRotate 1 8#4) State.reset = .next t ∧ (t.fault == State.reset.fault) = true)
    ∧ ∃ t, exec .halt State.reset = .next t ∧ (t.fault == State.reset.fault) = true :=
  ⟨next_of_any (p := fun t : State => t.fault == State.reset.fault) (by decide),
    next_of_any (p := fun t : State => t.fault == State.reset.fault) (by decide),
    next_of_any (p := fun t : State => t.fault == State.reset.fault) (by decide)⟩
theorem witness_EveryStepKeepsTheInvariant : (at10 0xC000#16).inv
    ∧ (∃ t, step (at10 0xC000#16) = .next t ∧ (!t.running) = true) ∧ (at10 0xC001#16).inv
    ∧ ∃ t, step (at10 0xC001#16) = .next t ∧ (t.fault == some (.invalidInstruction 0xC001#16)) = true :=
  ⟨⟨by decide, by decide, trivial⟩, next_of_any (p := fun t : State => !t.running) (by decide), ⟨by decide, by decide, trivial⟩,
    next_of_any (p := fun t : State => t.fault == some (.invalidInstruction 0xC001#16)) (by decide)⟩
theorem witness_LoaderRecordBecomesTheImage : (0xFE#8).toNat + [1#8, 2#8].length ≤ 256
    ∧ 256 < (0xFF#8).toNat + [1#8, 2#8].length := by decide
theorem witness_PlacedWordIsTheNextInstruction : (State.reset.setPc 0xFD#8).isRunning
    ∧ Memory.wf (State.reset.setPc 0xFD#8).memory = true ∧ (State.reset.setPc 0xFD#8).pc.toNat ≤ 0xFD
    ∧ Instr.halt.wellFormed = true := by decide
theorem witness_BurstOnAStoppedContextReturnsAtOnce : State.reset.stop.isHalted
    ∧ (State.reset.fail 0x00#8 .nullInstruction).isFaulted .nullInstruction ∧ State.reset.isRunning := by decide
theorem witness_TerminalSignalSaysTheStateAfter : (State.reset.running = false → State.reset.fault = none)
    ∧ (State.reset.stop.running = false → State.reset.stop.fault = none) := by decide
theorem witness_BurstIsTheIteratedStep : (at10 0x0FFF#16).isRunning
    ∧ (∃ b, run 1 (at10 0x0FFF#16) = .next b ∧ (b.signal == .fuelExhausted) = true)
    ∧ (∃ b, run 2 (at10 0xC000#16) = .next b ∧ (b.signal == .haltExecution) = true)
    ∧ ∃ b, run 2 State.reset = .next b ∧ (b.signal == .fatal .nullInstruction) = true :=
  ⟨by decide, next_of_any (p := fun b : Burst => b.signal == .fuelExhausted) (by decide),
    next_of_any (p := fun b : Burst => b.signal == .haltExecution) (by decide),
    next_of_any (p := fun b : Burst => b.signal == .fatal .nullInstruction) (by decide)⟩
theorem witness_FatalErrorsNeedTheirCause :
    (∃ b, run 1 (withConfig (at10 0xA108#16) { shiftGE8 := .fault }) = .next b
      ∧ (b.signal == .fatal (.shiftOutOfRange 8#4)) = true)
    ∧ (∃ b, run 1 (placedAt 0xFE#8 0xC000#16) = .next b ∧ (b.signal == .fatal (.pcOverflow 0xFE#8)) = true)
    ∧ (∃ b, run 1 (State.reset.setPc 0xFF#8) = .next b ∧ (b.signal == .fatal (.fetchOutOfRange 0xFF#8)) = true)
    ∧ (at10 0xA108#16).fault = none ∧ (placedAt 0xFE#8 0xC000#16).fault = none :=
  ⟨next_of_any (p := fun b : Burst => b.signal == .fatal (.shiftOutOfRange 8#4)) (by decide),
    next_of_any (p := fun b : Burst => b.signal == .fatal (.pcOverflow 0xFE#8)) (by decide),
    next_of_any (p := fun b : Burst => b.signal == .fatal (.fetchOutOfRange 0xFF#8)) (by decide), by decide, by decide⟩
theorem witness_SaferWithLessFuel : 0 ≤ 1 ∧ (at10 0xC000#16).safeFor 1 := by
  obtain ⟨b, hb, hs⟩ := next_of_any (r := run 1 (at10 0xC000#16)) (p := fun b : Burst => b.signal == .haltExecution) (by decide)
  refine ⟨by decide, b, hb, fun k hk => ?_⟩
  rw [hk] at hs
  exact absurd hs (by simp)
theorem witness_BurstSizesDoNotMatter : ∃ b, run [1, 1].sum (at10 0x0FFF#16) = .next b
    ∧ (b.signal == .fatal .nullInstruction) = true :=
  next_of_any (p := fun b : Burst => b.signal == .fatal .nullInstruction) (by decide)

end Sys2Proof.Tests
end

section
/-! PROOFS. The parameters of 00_scope.md R7 through an instruction, through the stages before it, and through a step
(log 1). -/

namespace Sys2Proof.Machine

/-- Each shared operation that an instruction can end in keeps the parameters. -/
theorem exec_config {i : Instr} {s t : State} (h : exec i s = .next t) : t.config = s.config := by
  rcases exec_cases i s with e | ⟨r, v, e⟩ | ⟨a, v, e⟩ | ⟨p, e⟩ | ⟨-, e⟩ | ⟨r, n, -, -, -, e⟩ <;>
    obtain rfl := Host.Outcome.next.inj (e.symm.trans h)
  · rfl
  · exact setReg_config s r v
  · exact store_config s a v
  · exact setPc_config s p
  · exact stop_config s
  · exact fail_config s _ _

/-- The stages before execute write the pc alone. -/
theorem prepare_config {s s' : State} {i : Instr} (h : prepare s = .ok (i, s')) : s'.config = s.config := by
  obtain ⟨w, next, -, -, -, rfl⟩ := prepare_ok h
  exact setPc_config s next

/-- Settles O46, over what a step can do: a failing stage latches its error, or the decoded instruction runs on the
advanced state. -/
theorem parametersNeverChange : Obligations.ParametersNeverChange := by
  intro s t h
  obtain ⟨-, ⟨k, -, rfl⟩ | ⟨i, s', hp, he⟩⟩ := step_next h
  · exact fail_config s s.pc k
  · calc t.config = s'.config := exec_config he
      _ = s.config := prepare_config hp

end Sys2Proof.Machine
end

section
/-! PROOFS. Reset has the invariant, and a canonical memory is determined by what its addresses read as (10_state.md R42,
R45; log 5). -/

namespace Sys2Proof.Machine

/-- With the latch clear, the invariant asks for a canonical memory alone. -/
theorem inv_of_unlatched {s : State} (hm : Memory.wf s.memory = true) (hf : s.fault = none) : s.inv := by
  refine ⟨hm, fun _ => hf, ?_⟩
  unfold State.latchIsTrue
  rw [hf]
  trivial

/-- Settles O50: reset has a clear latch and a canonical memory. -/
theorem resetHasTheInvariant : Obligations.ResetHasTheInvariant :=
  inv_of_unlatched wf_reset rfl

theorem lookup_cons_self (a : Nat) (v : Byte) (m : Memory) : Memory.lookup ((a, v) :: m) a = v := by
  simp [Memory.lookup]

theorem lookup_cons_of_ne {a b : Nat} (v : Byte) (m : Memory) (h : b ≠ a) :
    Memory.lookup ((a, v) :: m) b = Memory.lookup m b := by
  simp [Memory.lookup, h.symm]

/-- The first entry of a canonical list is visible: a list that starts above its address does not read like it there. -/
theorem lookup_head_ne_of_from {a : Nat} {v : Byte} {m m' : Memory} (h : Memory.wf ((a, v) :: m) = true)
    (hf : Memory.from (a + 1) m') : Memory.lookup ((a, v) :: m) a ≠ Memory.lookup m' a := by
  obtain ⟨-, hv, -, -⟩ := wf_cons.mp h
  rw [lookup_cons_self, lookup_below hf a.lt_succ_self]
  exact hv

/-- A canonical list lies above every address below its first one. -/
theorem from_of_lt_head {a b : Nat} {v : Byte} {m : Memory} (h : Memory.wf ((b, v) :: m) = true) (hab : a < b) :
    Memory.from (a + 1) ((b, v) :: m) := by
  obtain ⟨-, -, hf, -⟩ := wf_cons.mp h
  exact List.forall_mem_cons.mpr ⟨hab, from_mono hf (by omega)⟩

/-- Canonical lists that read alike inside the address space are equal: the lower of two first addresses would tell them
apart, and below the tails both read as unlisted. -/
theorem eq_of_lookup_eq {m m' : Memory} (h : Memory.wf m = true) (h' : Memory.wf m' = true)
    (heq : ∀ a < 256, Memory.lookup m a = Memory.lookup m' a) : m = m' := by
  induction m generalizing m' with
  | nil =>
    cases m' with
    | nil => rfl
    | cons q rest' =>
      obtain ⟨b, u⟩ := q
      obtain ⟨hb, -, -, -⟩ := wf_cons.mp h'
      exact absurd (heq b hb).symm (lookup_head_ne_of_from h' (by simp [Memory.from]))
  | cons p rest ih =>
    obtain ⟨a, v⟩ := p
    obtain ⟨ha, -, hf, hw⟩ := wf_cons.mp h
    cases m' with
    | nil => exact absurd (heq a ha) (lookup_head_ne_of_from h (by simp [Memory.from]))
    | cons q rest' =>
      obtain ⟨b, u⟩ := q
      obtain ⟨hb, -, hf', hw'⟩ := wf_cons.mp h'
      rcases lt_trichotomy a b with hab | rfl | hba
      · exact absurd (heq a ha) (lookup_head_ne_of_from h (from_of_lt_head h' hab))
      · have hvu : v = u := by simpa only [lookup_cons_self] using heq a ha
        have hrest : ∀ c < 256, Memory.lookup rest c = Memory.lookup rest' c := by
          intro c hc
          by_cases hca : c = a
          · rw [hca, lookup_below hf a.lt_succ_self, lookup_below hf' a.lt_succ_self]
          · simpa only [lookup_cons_of_ne _ _ hca] using heq c hc
        rw [hvu, ih hw hw' hrest]
      · exact absurd (heq b hb).symm (lookup_head_ne_of_from h' (from_of_lt_head h hba))

/-- Settles O11: reading every byte address is reading every address inside the space. -/
theorem equalReadsMeanEqualMemories : Obligations.EqualReadsMeanEqualMemories := by
  intro m m' h h' hread
  refine eq_of_lookup_eq h h' fun a ha => ?_
  have hByte : (BitVec.ofNat 8 a).toNat = a := by simpa using ha
  simpa only [Memory.read, hByte] using hread (BitVec.ofNat 8 a)

end Sys2Proof.Machine
end

section
/-! PROOFS. What an instruction does, as one shared operation that is the same on every state with the same pc, memory,
parameters and registers read (10_state.md R33), and from it what becomes of `running` (R40), of the fault latch (R41) and
of the registers. -/

namespace Sys2Proof.Machine

/-- The shared operation that an instruction ends in, with the values it was given. -/
inductive Effect where
  | keep
  | setReg (r : RegIdx) (v : Byte)
  | store (a v : Byte)
  | jumpIf (taken : Bool) (target : Byte)
  | stop
  | fail (a : Byte) (k : FaultKind)

/-- The operation, done to a state. -/
def Effect.apply : Effect → State → State
  | .keep, s => s
  | .setReg r v, s => s.setReg r v
  | .store a v, s => s.store a v
  | .jumpIf taken target, s => s.jumpIf taken target
  | .stop, s => s.stop
  | .fail a k, s => s.fail a k

/-- Which instructions can end in the operation, under parameters `c`: a register write is of the register the table of R33
lists, and only the erring shift fails. -/
def Effect.IsOf (i : Instr) (c : Config) : Effect → Prop
  | .keep => i.regWritten = none
  | .setReg r _ => i.regWritten = some r
  | .store _ _ => i.regWritten = none
  | .jumpIf _ _ => i.regWritten = none
  | .stop => i = .halt
  | .fail _ k => ∃ (r : RegIdx) (n : Nibble), i = .bitwiseRotate r n ∧ k = .shiftOutOfRange n ∧ 8 ≤ n.toNat
      ∧ c.shiftGE8 = .fault

/-- `s'` is as `s` in everything that `i` may look at: not in `running`, nor in the latch, nor in a register that the table
of R33 does not list as read. -/
structure State.AgreesFor (i : Instr) (s s' : State) : Prop where
  pc : s'.pc = s.pc
  memory : s'.memory = s.memory
  config : s'.config = s.config
  reg : ∀ q ∈ i.regsRead, s'.reg q = s.reg q

theorem State.AgreesFor.refl (i : Instr) (s : State) : s.AgreesFor i s := ⟨rfl, rfl, rfl, fun _ _ => rfl⟩

theorem State.AgreesFor.load {i : Instr} {s s' : State} (h : s.AgreesFor i s') (a : Byte) : s'.load a = s.load a :=
  congrArg (Memory.read · a) h.memory

theorem State.AgreesFor.instrAddr {i : Instr} {s s' : State} (h : s.AgreesFor i s') : s'.instrAddr = s.instrAddr :=
  congrArg (· - 2#8) h.pc

/-- The one error the shifter can answer, and when. -/
theorem shr_error {mode : ShiftGE8} {a : Byte} {n : Nibble} {k : FaultKind} (h : shr mode a n = .error k) :
    k = .shiftOutOfRange n ∧ 8 ≤ n.toNat ∧ mode = .fault := by
  rcases shr_cases mode a n with ⟨-, e⟩ | ⟨-, -, e⟩ | ⟨-, -, e⟩ | ⟨hn, hm, e⟩
  · cases e.symm.trans h
  · cases e.symm.trans h
  · cases e.symm.trans h
  · exact ⟨Except.error.inj (h.symm.trans e), hn, hm⟩

theorem exec_bitwiseRotate_of_ok {s : State} {r : RegIdx} {n : Nibble} {v : Byte}
    (h : shr s.config.shiftGE8 (s.reg r) n = .ok v) : exec (.bitwiseRotate r n) s = .next (s.setReg r v) := by
  simp only [exec, execBitwiseRotate, h]

theorem exec_bitwiseRotate_of_error {s : State} {r : RegIdx} {n : Nibble} {k : FaultKind}
    (h : shr s.config.shiftGE8 (s.reg r) n = .error k) :
    exec (.bitwiseRotate r n) s = .next (s.fail s.instrAddr k) := by
  simp only [exec, execBitwiseRotate, h]

/-- One operation is what `i` does on every state that agrees with `s` in what `i` looks at. -/
def HasEffect (i : Instr) (s : State) : Prop :=
  ∃ e : Effect, e.IsOf i s.config ∧ ∀ s', s.AgreesFor i s' → exec i s' = .next (e.apply s')

/-- An instruction whose operation depends on the value of one register, which the table of R33 lists as read. -/
theorem hasEffect_of_one_read {i : Instr} {s : State} {a : RegIdx} (f : Byte → Effect) (hread : i.regsRead = [a])
    (hof : (f (s.reg a)).IsOf i s.config) (hexec : ∀ s', exec i s' = .next ((f (s'.reg a)).apply s')) :
    HasEffect i s := by
  refine ⟨f (s.reg a), hof, fun s' h => ?_⟩
  rw [← h.reg a (by simp [hread])]
  exact hexec s'

/-- An instruction whose operation depends on the values of two registers, which the table of R33 lists as read. -/
theorem hasEffect_of_two_reads {i : Instr} {s : State} {a b : RegIdx} (f : Byte → Byte → Effect)
    (hread : i.regsRead = [a, b]) (hof : (f (s.reg a) (s.reg b)).IsOf i s.config)
    (hexec : ∀ s', exec i s' = .next ((f (s'.reg a) (s'.reg b)).apply s')) : HasEffect i s := by
  refine ⟨f (s.reg a) (s.reg b), hof, fun s' h => ?_⟩
  rw [← h.reg a (by simp [hread]), ← h.reg b (by simp [hread])]
  exact hexec s'

/-- The shift looks at its register and at `SHIFT_GE8`, and where the shifter errs, at the pc. -/
theorem bitwiseRotate_hasEffect (r : RegIdx) (n : Nibble) (s : State) : HasEffect (.bitwiseRotate r n) s := by
  have hsame (s' : State) (h : s.AgreesFor (.bitwiseRotate r n) s') :
      shr s'.config.shiftGE8 (s'.reg r) n = shr s.config.shiftGE8 (s.reg r) n := by
    rw [h.config, h.reg r (List.mem_singleton.mpr rfl)]
  cases hshr : shr s.config.shiftGE8 (s.reg r) n with
  | ok v => exact ⟨.setReg r v, rfl, fun s' h => exec_bitwiseRotate_of_ok ((hsame s' h).trans hshr)⟩
  | error k =>
    refine ⟨.fail s.instrAddr k, ⟨r, n, rfl, shr_error hshr⟩, fun s' h => ?_⟩
    rw [← h.instrAddr]
    exact exec_bitwiseRotate_of_error ((hsame s' h).trans hshr)

/-- Every instruction ends in one operation, the same one on all states that agree in what the instruction looks at. -/
theorem exec_hasEffect (i : Instr) (s : State) : HasEffect i s := by
  cases i with
  | noOp => exact ⟨.keep, rfl, fun _ _ => rfl⟩
  | loadMemory r addr =>
    refine ⟨.setReg r (s.load (directAddr addr)), rfl, fun s' h => ?_⟩
    rw [← h.load]; rfl
  | loadValue r imm => exact ⟨.setReg r (immediate imm), rfl, fun _ _ => rfl⟩
  | storeMemory r addr => exact hasEffect_of_one_read (.store (directAddr addr)) rfl rfl fun _ => rfl
  | moveRegister r d => exact hasEffect_of_one_read (.setReg d) rfl rfl fun _ => rfl
  | addInteger r a b => exact hasEffect_of_two_reads (fun x y => .setReg r (addInt y x)) rfl rfl fun _ => rfl
  | addFloat r a b => exact hasEffect_of_two_reads (fun x y => .setReg r (addFloat x y)) rfl rfl fun _ => rfl
  | bitwiseOr r a b => exact hasEffect_of_two_reads (fun x y => .setReg r (y ||| x)) rfl rfl fun _ => rfl
  | bitwiseAnd r a b => exact hasEffect_of_two_reads (fun x y => .setReg r (y &&& x)) rfl rfl fun _ => rfl
  | bitwiseXor r a b => exact hasEffect_of_two_reads (fun x y => .setReg r (y ^^^ x)) rfl rfl fun _ => rfl
  | bitwiseRotate r n => exact bitwiseRotate_hasEffect r n s
  | jump addr => exact ⟨.jumpIf true (directTarget addr), rfl, fun _ _ => rfl⟩
  | jumpIfEq r addr => exact hasEffect_of_two_reads (fun x y => .jumpIf (x == y) (directTarget addr)) rfl rfl fun _ => rfl
  | halt => exact ⟨.stop, rfl, fun _ _ => rfl⟩
  | loadIndirect r a =>
    refine ⟨.setReg r (s.load (s.reg a)), rfl, fun s' h => ?_⟩
    rw [← h.load, ← h.reg a (List.mem_singleton.mpr rfl)]; rfl
  | storeIndirect r a => exact hasEffect_of_two_reads (fun x y => .store y x) rfl rfl fun _ => rfl
  | jumpIndirect t => exact hasEffect_of_one_read (.jumpIf true) rfl rfl fun _ => rfl
  | jumpWithTest r x t =>
    refine ⟨.jumpIf (compareTest x (s.reg r) (s.reg 0)) (s.reg t), rfl, fun s' h => ?_⟩
    rw [← h.reg r (by simp [Instr.regsRead]), ← h.reg 0 (by simp [Instr.regsRead]),
      ← h.reg t (by simp [Instr.regsRead])]
    rfl

/-- The operation behind a completed instruction, and what it is on every state that agrees with the first. -/
theorem effect_of_exec {i : Instr} {s t : State} (h : exec i s = .next t) :
    ∃ e : Effect, e.IsOf i s.config ∧ t = e.apply s ∧ ∀ s', s.AgreesFor i s' → exec i s' = .next (e.apply s') := by
  obtain ⟨e, hof, hexec⟩ := exec_hasEffect i s
  exact ⟨e, hof, Host.Outcome.next.inj (h.symm.trans (hexec s (.refl i s))), hexec⟩

/-! ### `running` (10_state.md R40) -/

theorem Effect.ne_stop_of_ne_halt {e : Effect} {i : Instr} {c : Config} (hof : e.IsOf i c) (hi : i ≠ .halt) :
    e ≠ .stop := by
  rintro rfl
  exact hi hof

theorem Effect.apply_running {e : Effect} (he : e ≠ .stop) (s : State) : (e.apply s).running = s.running := by
  cases e with
  | stop => exact absurd rfl he
  | _ => rfl

theorem Effect.apply_withRunning {e : Effect} (he : e ≠ .stop) (s : State) (b : Bool) :
    e.apply { s with running := b } = { e.apply s with running := b } := by
  cases e with
  | stop => exact absurd rfl he
  | _ => rfl

theorem exec_running {i : Instr} {s t : State} (hi : i ≠ .halt) (h : exec i s = .next t) : t.running = s.running := by
  obtain ⟨e, hof, rfl, -⟩ := effect_of_exec h
  exact Effect.apply_running (Effect.ne_stop_of_ne_halt hof hi) s

theorem exec_withRunning {i : Instr} {s t : State} (b : Bool) (hi : i ≠ .halt) (h : exec i s = .next t) :
    exec i { s with running := b } = .next { t with running := b } := by
  obtain ⟨e, hof, rfl, hexec⟩ := effect_of_exec h
  rw [← Effect.apply_withRunning (Effect.ne_stop_of_ne_halt hof hi)]
  exact hexec _ ⟨rfl, rfl, rfl, fun _ _ => rfl⟩

/-- What the stages before execute hand on: the instruction that the word at the pc decodes to, and the state with the pc
advanced. -/
theorem prepare_ok_wordAtPc {s s' : State} {i : Instr} (h : prepare s = .ok (i, s')) :
    decode s.wordAtPc = .op i ∧ ∃ next, s' = s.setPc next := by
  obtain ⟨w, next, hw, hd, -, rfl⟩ := prepare_ok h
  obtain ⟨-, rfl⟩ := (fetch_ok_iff s w).mp hw
  exact ⟨hd, next, rfl⟩

/-- A step that leaves `running` false ran Halt: a failing stage does not write it, and no other instruction does. -/
theorem step_stops_by_halt {s t : State} (h : step s = .next t) (ht : t.running = false) :
    decode s.wordAtPc = .op .halt := by
  obtain ⟨⟨hrun, -⟩, ⟨k, -, rfl⟩ | ⟨i, s', hp, he⟩⟩ := step_next h
  · rw [fail_running, hrun] at ht
    cases ht
  · obtain ⟨hd, next, rfl⟩ := prepare_ok_wordAtPc hp
    by_cases hi : i = .halt
    · exact hi ▸ hd
    · rw [exec_running hi he, setPc_running, hrun] at ht
      cases ht

/-- Settles O44: Halt is `State.stop`, and every other instruction's operation neither writes nor looks at `running`. -/
theorem onlyHaltClearsRunning : Obligations.OnlyHaltClearsRunning := by
  refine ⟨?_, fun _ _ _ hi h => exec_running hi h, fun _ _ _ b hi h => exec_withRunning b hi h, ?_,
    fun _ _ h ht => step_stops_by_halt h ht⟩
  · intro s t b h
    obtain rfl : s.stop = t := Host.Outcome.next.inj h
    exact ⟨stop_running s, rfl⟩
  · intro s t h
    obtain ⟨⟨hrun, -⟩, -⟩ := step_next h
    exact hrun

/-! ### The fault latch (10_state.md R41) -/

/-- Only the erring shift writes the latch. -/
theorem exec_fault {i : Instr} {s t : State} (h : exec i s = .next t) :
    t.fault = s.fault ∨ ∃ (r : RegIdx) (n : Nibble), i = .bitwiseRotate r n ∧ t.fault = some (.shiftOutOfRange n)
      ∧ 8 ≤ n.toNat ∧ s.config.shiftGE8 = .fault := by
  obtain ⟨e, hof, rfl, -⟩ := effect_of_exec h
  cases e with
  | fail a k =>
    obtain ⟨r, n, hi, rfl, hn, hmode⟩ := hof
    exact .inr ⟨r, n, hi, fail_fault s a _, hn, hmode⟩
  | _ => exact .inl rfl

/-- The latch decides nothing but itself. -/
theorem Effect.apply_withFault (e : Effect) (s : State) (f : Option FaultKind) :
    (e.apply { s with fault := f }).regs = (e.apply s).regs ∧ (e.apply { s with fault := f }).memory = (e.apply s).memory
    ∧ (e.apply { s with fault := f }).pc = (e.apply s).pc
    ∧ (e.apply { s with fault := f }).running = (e.apply s).running := by
  cases e <;> exact ⟨rfl, rfl, rfl, rfl⟩

/-- Settles O45: a step is taken with a clear latch only, and no operation looks at the latch, the erring shift's
included. -/
theorem faultLatchIsFinal : Obligations.FaultLatchIsFinal := by
  refine ⟨?_, fun _ _ _ h => exec_fault h, ?_⟩
  · intro s t h
    obtain ⟨⟨-, hf⟩, -⟩ := step_next h
    exact hf
  · intro i s t f h _
    obtain ⟨e, -, rfl, hexec⟩ := effect_of_exec h
    exact ⟨_, hexec _ ⟨rfl, rfl, rfl, fun _ _ => rfl⟩, e.apply_withFault s f⟩

/-! ### The register footprint (10_state.md R33) -/

/-- An instruction leaves every register but the one that R33 lists as written. -/
theorem exec_reg_of_not_written {i : Instr} {s t : State} {q : RegIdx} (h : exec i s = .next t)
    (hq : i.regWritten ≠ some q) : t.reg q = s.reg q := by
  obtain ⟨e, hof, rfl, -⟩ := effect_of_exec h
  cases e with
  | setReg r v =>
    have hne : q ≠ r := fun hqr => hq (hqr ▸ hof)
    exact setReg_reg_of_ne s v hne
  | _ => rfl

/-- Outside the register file an operation does not depend on the registers. -/
theorem Effect.apply_withRegs (e : Effect) (s : State) (other : Vector Byte 16) :
    (e.apply { s with regs := other }).pc = (e.apply s).pc
    ∧ (e.apply { s with regs := other }).memory = (e.apply s).memory
    ∧ (e.apply { s with regs := other }).running = (e.apply s).running
    ∧ (e.apply { s with regs := other }).fault = (e.apply s).fault
    ∧ (e.apply { s with regs := other }).config = (e.apply s).config := by
  cases e <;> exact ⟨rfl, rfl, rfl, rfl, rfl⟩

/-- The register that R33 lists as written holds the same value after the operation on states that agree in what the
instruction looks at. The erring shift leaves it as it was, and it is one the shift reads. -/
theorem Effect.apply_reg_written {e : Effect} {i : Instr} {c : Config} {s s' : State} {q : RegIdx} (hof : e.IsOf i c)
    (hq : i.regWritten = some q) (hs : s.AgreesFor i s') : (e.apply s').reg q = (e.apply s).reg q := by
  cases e with
  | setReg r v =>
    obtain rfl : r = q := Option.some.inj (hof.symm.trans hq)
    exact (setReg_reg_self s' r v).trans (setReg_reg_self s r v).symm
  | fail a k =>
    obtain ⟨r, n, rfl, -, -, -⟩ := hof
    obtain rfl : r = q := Option.some.inj hq
    exact hs.reg r (List.mem_singleton.mpr rfl)
  | stop =>
    obtain rfl : i = .halt := hof
    cases hq
  | keep => cases hof.symm.trans hq
  | store a v => cases hof.symm.trans hq
  | jumpIf taken target => cases hof.symm.trans hq

/-- Settles O47: the operation writes the listed register alone, and registers that agree where the table lists a read give
the same operation. -/
theorem registerFootprintIsTheTable : Obligations.RegisterFootprintIsTheTable := by
  refine ⟨fun _ _ _ _ h hq => exec_reg_of_not_written h hq, ?_⟩
  intro i s t other h hread
  have hs : s.AgreesFor i { s with regs := other } := ⟨rfl, rfl, rfl, hread⟩
  obtain ⟨e, hof, rfl, hexec⟩ := effect_of_exec h
  obtain ⟨hpc, hmem, hrun, hfault, hconfig⟩ := e.apply_withRegs s other
  exact ⟨_, hexec _ hs, hpc, hmem, hrun, hfault, hconfig, fun _ hq => Effect.apply_reg_written hof hq hs⟩

end Sys2Proof.Machine
end

section
/-! PROOFS. Memory as a bank of cells (20_memory.md R51, R59, R61), the word that fetch assembles from it (R53, R62), and
which operations reach it (R52). -/

namespace Sys2Proof.Machine

/-! ### Reads and writes of one cell (20_memory.md R51, R59, R61) -/

/-- Everything a write can do to what the addresses read as. -/
theorem read_write {m : Memory} (h : Memory.wf m = true) (a b v : Byte) :
    Memory.read (Memory.write m a v) b = if b = a then v else Memory.read m b := by
  simpa only [Memory.read, Memory.write, BitVec.toNat_inj] using lookup_insert h a.toNat b.toNat v

/-- Settles O9: a write is one insertion into the canonical list. -/
theorem readReturnsTheLatestWrite : Obligations.ReadReturnsTheLatestWrite :=
  fun _ a b v h => read_write h a b v

/-- Writing back the byte that a cell holds changes no read, so it changes nothing (log 5). -/
theorem write_of_read_eq {m : Memory} {a v : Byte} (h : Memory.wf m = true) (hv : Memory.read m a = v) :
    Memory.write m a v = m := by
  refine equalReadsMeanEqualMemories _ _ (wf_write a v h) h fun b => ?_
  rw [read_write h]
  split
  next hba => rw [hba, hv]
  next => rfl

/-- Settles O10: the second write, too, writes back what the cell holds. -/
theorem memoryAccessesAreIdempotent : Obligations.MemoryAccessesAreIdempotent := by
  intro m a v h
  have hholds : Memory.read (Memory.write m a v) a = v := by rw [read_write h, if_pos rfl]
  exact ⟨write_of_read_eq (wf_write a v h) hholds, write_of_read_eq h rfl⟩

/-! ### The fetched word (20_memory.md R53, R62) -/

theorem fetch_of_pc_le {s : State} (hpc : s.pc.toNat ≤ 0xFE) :
    fetch s = .ok (wordOfBytes (s.load s.pc) (s.load (s.pc + 1#8))) :=
  (fetch_ok_iff s _).mpr ⟨hpc, rfl⟩

/-- Big-endian, as numbers: the byte at the lower address counts 256 times. -/
theorem wordOfBytes_toNat (hi lo : Byte) : (wordOfBytes hi lo).toNat = hi.toNat * 256 + lo.toNat := by
  rw [wordOfBytes, BitVec.toNat_append, ← Nat.shiftLeft_add_eq_or_of_lt lo.isLt, Nat.shiftLeft_eq]

/-- Settles O12: the two addresses as numbers are the pc and the pc plus 1. -/
theorem fetchIsBigEndian : Obligations.FetchIsBigEndian := by
  intro s hpc
  have hhi : BitVec.ofNat 8 s.pc.toNat = s.pc := by simp
  have hlo : BitVec.ofNat 8 (s.pc.toNat + 1) = s.pc + 1#8 := by rw [BitVec.ofNat_add, hhi]
  refine ⟨_, fetch_of_pc_le hpc, ?_⟩
  rw [hhi, hlo, wordOfBytes_toNat]

/-- Settles O13: a store leaves the pc, and each byte of the word is a load after the store. -/
theorem storeIsSeenByTheNextFetch : Obligations.StoreIsSeenByTheNextFetch := by
  intro s a v hwf hpc
  rw [fetch_of_pc_le (s := s.store a v) hpc, store_pc, load_store hwf, load_store hwf]
  simp only [eq_comm (a := a)]

/-! ### Which operations reach memory (20_memory.md R52) -/

/-- Fetch looks at two bytes of memory. -/
theorem fetch_withMemory {s : State} {m : Memory} (hhi : Memory.read m s.pc = s.load s.pc)
    (hlo : Memory.read m (s.pc + 1#8) = s.load (s.pc + 1#8)) : fetch { s with memory := m } = fetch s := by
  rw [fetch_eq s, ← hhi, ← hlo]
  rfl

/-- An instruction that is no store does the same on every memory, but for the byte that a load reads. -/
theorem exec_withMemory {i : Instr} {s t : State} {m : Memory} (h : exec i s = .next t)
    (hsm : ∀ r addr, i ≠ .storeMemory r addr) (hsi : ∀ r a, i ≠ .storeIndirect r a)
    (hlm : ∀ r addr, i = .loadMemory r addr → Memory.read m (directAddr addr) = s.load (directAddr addr))
    (hli : ∀ r a, i = .loadIndirect r a → Memory.read m (indirectAddr s a) = s.load (indirectAddr s a)) :
    exec i { s with memory := m } = .next { t with memory := m } := by
  cases i with
  | storeMemory r addr => exact absurd rfl (hsm r addr)
  | storeIndirect r a => exact absurd rfl (hsi r a)
  | loadMemory r addr =>
    obtain rfl : s.setReg r (s.load (directAddr addr)) = t := Host.Outcome.next.inj h
    rw [← hlm r addr rfl]
    rfl
  | loadIndirect r a =>
    obtain rfl : s.setReg r (s.load (indirectAddr s a)) = t := Host.Outcome.next.inj h
    rw [← hli r a rfl]
    rfl
  | bitwiseRotate r n =>
    cases hshr : shr s.config.shiftGE8 (s.reg r) n with
    | ok v =>
      obtain rfl := Host.Outcome.next.inj ((exec_bitwiseRotate_of_ok hshr).symm.trans h)
      exact exec_bitwiseRotate_of_ok (s := { s with memory := m }) hshr
    | error k =>
      obtain rfl := Host.Outcome.next.inj ((exec_bitwiseRotate_of_error hshr).symm.trans h)
      exact exec_bitwiseRotate_of_error (s := { s with memory := m }) hshr
  | _ =>
    obtain rfl := Host.Outcome.next.inj h
    rfl

/-- An instruction that is no store leaves memory: on the memory it was given, it answers the state with that memory. -/
theorem exec_memory {i : Instr} {s t : State} (h : exec i s = .next t) (hsm : ∀ r addr, i ≠ .storeMemory r addr)
    (hsi : ∀ r a, i ≠ .storeIndirect r a) : t.memory = s.memory := by
  have hsame : exec i s = .next { t with memory := s.memory } :=
    exec_withMemory h hsm hsi (fun _ _ _ => rfl) (fun _ _ _ => rfl)
  have ht : t = { t with memory := s.memory } := Host.Outcome.next.inj (h.symm.trans hsame)
  rw [ht]

theorem store_sameMemoryBut {s : State} (h : Memory.wf s.memory = true) (a v : Byte) :
    s.sameMemoryBut (s.store a v) a := by
  intro b hb
  rw [load_store h, if_neg hb]

/-- Settles O14: what fetch and the instructions do on another memory, and that each store is one `State.store`. -/
theorem onlyTheseOperationsReachMemory : Obligations.OnlyTheseOperationsReachMemory := by
  refine ⟨fun _ _ => fetch_withMemory, fun _ _ _ => exec_memory, fun _ _ _ _ => exec_withMemory, ?_⟩
  rintro _ s t _ hwf h (⟨r, addr, rfl, hat⟩ | ⟨r, a, rfl, hat⟩) <;> rw [hat]
  · obtain rfl : s.store (directAddr addr) (s.reg r) = t := Host.Outcome.next.inj h
    exact store_sameMemoryBut hwf _ _
  · obtain rfl : s.store (indirectAddr s a) (s.reg r) = t := Host.Outcome.next.inj h
    exact store_sameMemoryBut hwf _ _

end Sys2Proof.Machine
end

section
/-! PROOFS. The image of one loader record (20_memory.md R64, D12, D13): what the cells hold before it, what its bytes do to
them, and when it does not fit. -/

namespace Sys2Proof.Machine

theorem lookup_map_range' (v : Byte) (n : Nat) {a b : Nat} (hab : a ≤ b) (hb : b < a + n) :
    Memory.lookup ((List.range' a n).map fun k => (k, v)) b = v := by
  induction n generalizing a with
  | zero => omega
  | succ n ih =>
    rw [List.range'_succ, List.map_cons]
    obtain rfl | hlt := hab.eq_or_lt
    · exact lookup_cons_self ..
    · rw [lookup_cons_of_ne _ _ hlt.ne']
      exact ih hlt (by omega)

/-- Every cell of the filled memory holds the fill value (D12), also where that is what an unlisted address reads as. -/
theorem read_filled (v b : Byte) : Memory.read (Memory.filled v) b = v := by
  unfold Memory.read Memory.filled
  split
  next hv => exact hv.symm
  next =>
    rw [List.range_eq_range']
    exact lookup_map_range' v 256 (Nat.zero_le _) (by omega)

/-- A record that reaches past 0xFF is rejected (D13); one that does not is written. -/
theorem writeRecord_eq_none_iff (m : Memory) (a : Nat) (bytes : List Byte) (ha : a ≤ 256) :
    Memory.writeRecord m a bytes = none ↔ 256 < a + bytes.length := by
  induction bytes generalizing m a with
  | nil => simp [Memory.writeRecord, ha]
  | cons v rest ih =>
    rw [Memory.writeRecord, List.length_cons]
    split
    next hlt => rw [ih _ _ hlt, Nat.succ_add_eq_add_succ]
    next hge => exact iff_of_true rfl (by omega)

/-- Everything a written record does to what the addresses read as: its bytes stand contiguously from its address. -/
theorem lookup_writeRecord {m m' : Memory} {a : Nat} {bytes : List Byte} (h : Memory.wf m = true)
    (hr : Memory.writeRecord m a bytes = some m') (b : Nat) :
    Memory.lookup m' b =
      if hb : a ≤ b ∧ b - a < bytes.length then bytes[b - a]'hb.2 else Memory.lookup m b := by
  induction bytes generalizing m a with
  | nil =>
    obtain rfl : m = m' := Option.some.inj hr
    simp
  | cons v rest ih =>
    rw [Memory.writeRecord] at hr
    split at hr
    next hlt =>
      rw [ih (wf_insert v h hlt) hr, lookup_insert h]
      obtain hba | rfl | hab := lt_trichotomy b a
      · simp [hba.ne, hba.not_ge, show ¬ a + 1 ≤ b by omega]
      · simp
      · have hidx : b - a = b - (a + 1) + 1 := by omega
        simp [hab.ne', hab.le, Nat.succ_le_of_lt hab, hidx]
    next => cases hr

/-- The image of one record is that record over the filled memory. -/
theorem loadImage_singleton (c : Config) (a : Byte) (bytes : List Byte) :
    loadImage c [(a, bytes)] = Memory.writeRecord (Memory.filled c.unnamedCellValue) a.toNat bytes := by
  rw [loadImage, Memory.writeRecords]
  split
  next hr => exact hr.symm
  next hr => exact hr.symm

/-- Settles O52: the record is written over the filled memory where it fits, and rejected where it does not. -/
theorem loaderRecordBecomesTheImage : Obligations.LoaderRecordBecomesTheImage := by
  intro c a bytes
  have hnone := writeRecord_eq_none_iff (Memory.filled c.unnamedCellValue) a.toNat bytes a.isLt.le
  rw [loadImage_singleton]
  refine ⟨fun hfits => ?_, hnone.mpr⟩
  obtain ⟨m, hm⟩ := Option.ne_none_iff_exists'.mp (mt hnone.mp hfits.not_gt)
  refine ⟨m, hm, wf_writeRecord (wf_filled _) hm, fun b => ?_⟩
  have hread := lookup_writeRecord (wf_filled _) hm b.toNat
  rwa [← Memory.read, ← Memory.read, read_filled] at hread

end Sys2Proof.Machine
end

section
/-! PROOFS. The decoder as the first match in its table (30_encoding.md R75), the encoder as its inverse (R84, R85), and the
map by the top nibble that follows (R82, R89). -/

namespace Sys2Proof

/-! ### First match (30_encoding.md R75, R78) -/

theorem covers_iff (e : Entry) (w : Word) : e.covers w = true ↔ w &&& e.mask = e.pattern := beq_iff_eq

/-- The null word matches no entry (R78), so an entry's match alone says that the word is not null. -/
theorem ne_null_of_covers {e : Entry} {w : Word} (he : e ∈ decodeTable) (hc : e.covers w = true) : w ≠ 0x0000#16 := by
  have hpattern : ∀ e ∈ decodeTable, e.pattern ≠ 0x0000#16 := by decide
  rintro rfl
  rw [covers_iff, BitVec.zero_and] at hc
  exact hpattern e he hc.symm

theorem decode_of_find?_some {w : Word} {e : Entry} (hf : decodeTable.find? (fun d => d.covers w) = some e) :
    decode w = .op (e.build w) := by
  have hc : e.covers w = true := List.find?_some (p := fun d : Entry => d.covers w) hf
  rw [decode, if_neg (ne_null_of_covers (List.mem_of_find?_eq_some hf) hc), hf]

theorem decode_of_find?_none {w : Word} (hw : w ≠ 0x0000#16) (hf : decodeTable.find? (fun d => d.covers w) = none) :
    decode w = .invalidInstruction w := by
  rw [decode, if_neg hw, hf]

/-- Settles O7: the table's search stops at an entry before which none matches, or at none. -/
theorem decodeIsFirstMatch : Obligations.DecodeIsFirstMatch := by
  intro w hw
  cases hf : decodeTable.find? (fun e => e.covers w) with
  | some e =>
    obtain ⟨hc, earlier, later, htable, hearlier⟩ := List.find?_eq_some_iff_append.mp hf
    refine .inl ⟨earlier, later, e, htable, (covers_iff e w).mp hc, fun d hd hm => ?_, decode_of_find?_some hf⟩
    simpa [(covers_iff d w).mpr hm] using hearlier d hd
  | none =>
    exact .inr ⟨fun e he hm => List.find?_eq_none.mp hf e he ((covers_iff e w).mpr hm), decode_of_find?_none hw hf⟩

/-- A decoded instruction is what an entry that covers the word builds. -/
theorem exists_entry_of_decode {w : Word} {i : Instr} (h : decode w = .op i) :
    ∃ e ∈ decodeTable, w &&& e.mask = e.pattern ∧ e.build w = i := by
  have hw : w ≠ 0x0000#16 := by
    rintro rfl
    cases h
  obtain ⟨earlier, later, e, htable, hm, -, hd⟩ | ⟨-, hd⟩ := decodeIsFirstMatch w hw
  · exact ⟨e, by simp [htable], hm, DecodeResult.op.inj (hd.symm.trans h)⟩
  · cases hd.symm.trans h

/-! ### Decode of encode (30_encoding.md R85 (b)) -/

/-- Where two entries cover one word, each pattern has what the other's mask keeps of it. -/
theorem patterns_agree_of_covers {d e : Entry} {w : Word} (hd : d.covers w = true) (he : e.covers w = true) :
    d.pattern &&& e.mask = e.pattern &&& d.mask := by
  rw [← (covers_iff d w).mp hd, ← (covers_iff e w).mp he, BitVec.and_assoc, BitVec.and_assoc, BitVec.and_comm d.mask]

/-- The only overlaps of the table: Jump with JumpIfEq, and JumpIndirect with JumpWithTest. -/
theorem overlapping_entries : ∀ k j : Fin 18, j < k →
    decodeTable[j].pattern &&& decodeTable[k].mask = decodeTable[k].pattern &&& decodeTable[j].mask →
      (j = 11 ∧ k = 12) ∨ (j = 16 ∧ k = 17) := by
  decide

theorem regField_eq_zero_iff (w : Word) (off : Nat) : regField w off = 0 ↔ w.extractLsb' off 4 = 0#4 := by
  rw [← BitVec.toFin_inj]
  rfl

theorem wellFormed_jumpIfEq_iff (r : RegIdx) (addr : Byte) : (Instr.jumpIfEq r addr).wellFormed = true ↔ r ≠ 0 :=
  bne_iff_ne

theorem wellFormed_jumpWithTest_iff (r : RegIdx) (x : Nibble) (t : RegIdx) :
    (Instr.jumpWithTest r x t).wellFormed = true ↔ ¬ (r = 0 ∧ x = 0#4) := by
  rw [Instr.wellFormed, Bool.not_eq_true', Bool.eq_false_iff, Ne, Bool.and_eq_true, beq_iff_eq, beq_iff_eq]

/-- On a word that an earlier entry covers too, the later one builds an instruction that is not well-formed: the order of
the table matters only to the two forms that R85 excepts. -/
theorem not_wellFormed_build_of_earlier_covers {w : Word} {j k : Fin 18} (hjk : j < k)
    (hcj : decodeTable[j].covers w = true) (hck : decodeTable[k].covers w = true) :
    (decodeTable[k].build w).wellFormed ≠ true := by
  have hover := overlapping_entries k j hjk (patterns_agree_of_covers hcj hck)
  rw [covers_iff] at hcj
  obtain ⟨rfl, rfl⟩ | ⟨rfl, rfl⟩ := hover
  · obtain ⟨-, hr⟩ := (mask_byte w 0xB#4).mp hcj
    exact fun h => (wellFormed_jumpIfEq_iff _ _).mp h ((regField_eq_zero_iff w 8).mpr hr)
  · obtain ⟨-, hr, hx⟩ := (mask_jumpIndirect w 0xF#4).mp hcj
    exact fun h => (wellFormed_jumpWithTest_iff _ _ _).mp h ⟨(regField_eq_zero_iff w 8).mpr hr, hx⟩

/-- An entry that covers a word decodes it, if what it builds is well-formed: the first match is no earlier entry. -/
theorem decode_of_covers {w : Word} {e : Entry} (he : e ∈ decodeTable) (hc : e.covers w = true)
    (hwf : (e.build w).wellFormed = true) : decode w = .op (e.build w) := by
  obtain ⟨k, hk, rfl⟩ := List.getElem_of_mem he
  refine decode_of_find?_some (List.find?_eq_some_iff_getElem.mpr ⟨hc, k, hk, rfl, fun j hjk => ?_⟩)
  rw [Bool.not_eq_true', Bool.eq_false_iff]
  intro hcj
  exact not_wellFormed_build_of_earlier_covers (j := ⟨j, hjk.trans hk⟩) (k := ⟨k, hk⟩) hjk hcj hc hwf

open Laws.EncodesInItsEntry in
/-- Every instruction encodes into an entry that builds it back, well-formed or not. -/
theorem encodesInItsEntry (i : Instr) : Statement i := by
  cases i with
  | noOp => exact noOp
  | loadMemory r addr => exact loadMemory r addr
  | loadValue r imm => exact loadValue r imm
  | storeMemory r addr => exact storeMemory r addr
  | moveRegister r s => exact moveRegister r s
  | addInteger r s t => exact addInteger r s t
  | addFloat r s t => exact addFloat r s t
  | bitwiseOr r s t => exact bitwiseOr r s t
  | bitwiseAnd r s t => exact bitwiseAnd r s t
  | bitwiseXor r s t => exact bitwiseXor r s t
  | bitwiseRotate r amount => exact bitwiseRotate r amount
  | jump addr => exact jump addr
  | jumpIfEq r addr => exact jumpIfEq r addr
  | halt => exact halt
  | loadIndirect r s => exact loadIndirect r s
  | storeIndirect r s => exact storeIndirect r s
  | jumpIndirect t => exact jumpIndirect t
  | jumpWithTest r x t => exact jumpWithTest r x t

/-- Settles O3: the instruction's own entry covers its encoding, and no earlier entry does. -/
theorem decodeOfEncodedIsTheInstruction : Obligations.DecodeOfEncodedIsTheInstruction := by
  intro i hwf
  obtain ⟨e, he, hc, hbuild⟩ := encodesInItsEntry i
  calc decode (encode i) = .op (e.build (encode i)) := decode_of_covers he hc (by rwa [hbuild])
    _ = .op i := by rw [hbuild]

open Machine in
/-- Settles O4: each ill-formed instruction has the word of the instruction it decodes to, and its condition compares `x[0]`
with itself. -/
theorem illFormedVariantsActAsWhatTheyDecodeTo : Obligations.IllFormedVariantsActAsWhatTheyDecodeTo := by
  have hzero : placeReg 0 8 = 0#16 := place_zero 4 8
  refine ⟨fun addr => ⟨?_, fun s => ?_⟩, fun t => ⟨?_, fun s => ?_⟩⟩
  · have hword : encode (.jumpIfEq 0 addr) = encode (.jump addr) := by simp [encode, hzero]
    rw [hword, decodeOfEncodedIsTheInstruction _ rfl]
  · show Host.Outcome.next (s.jumpIf (s.reg 0 == s.reg 0) _) = .next (s.jumpIf true _)
    rw [beq_self_eq_true]
  · have hword : encode (.jumpWithTest 0 0#4 t) = encode (.jumpIndirect t) := by simp [encode, hzero]
    rw [hword, decodeOfEncodedIsTheInstruction _ rfl]
  · have htest : compareTest 0#4 (s.reg 0) (s.reg 0) = true := decide_eq_true rfl
    show Host.Outcome.next (s.jumpIf (compareTest 0#4 (s.reg 0) (s.reg 0)) _) = .next (s.jumpIf true _)
    rw [htest]

/-! ### Encode of decode (30_encoding.md R76, R81, R85 (a)) -/

/-- A field read and placed again is what the mask of its bits keeps. -/
theorem place_extract (w : Word) (off n : Nat) :
    place (w.extractLsb' off n) off = w &&& place (BitVec.allOnes n) off := by
  ext k hk
  rw [← BitVec.getLsbD_eq_getElem, ← BitVec.getLsbD_eq_getElem, BitVec.getLsbD_and, getLsbD_place _ _ _ hk,
    getLsbD_place _ _ _ hk]
  split
  next hoff => by_cases hn : k - off < n <;> simp [hn, Nat.add_sub_cancel' hoff]
  next => simp

theorem placeReg_regField_8 (w : Word) : placeReg (regField w 8) 8 = w &&& 0x0F00#16 := place_extract w 8 4
theorem placeReg_regField_4 (w : Word) : placeReg (regField w 4) 4 = w &&& 0x00F0#16 := place_extract w 4 4
theorem placeReg_regField_0 (w : Word) : placeReg (regField w 0) 0 = w &&& 0x000F#16 := place_extract w 0 4
theorem place_nibbleField_4 (w : Word) : place (nibbleField w 4) 4 = w &&& 0x00F0#16 := place_extract w 4 4
theorem place_nibbleField_0 (w : Word) : place (nibbleField w 0) 0 = w &&& 0x000F#16 := place_extract w 0 4
theorem place_byteField (w : Word) : place (byteField w) 0 = w &&& 0x00FF#16 := place_extract w 0 8

/-- An entry's fields are the bits that its mask leaves out: what it builds encodes to its pattern and those bits (R76). -/
theorem encode_build (w : Word) : ∀ e ∈ decodeTable, encode (e.build w) = e.pattern ||| (w &&& ~~~e.mask) := by
  simp [decodeTable, encode, placeReg_regField_8, placeReg_regField_4, placeReg_regField_0, place_nibbleField_4,
    place_nibbleField_0, place_byteField, BitVec.or_assoc, ← BitVec.and_or_distrib_left]

/-- Settles O2: a covered word is the entry's pattern and the bits that the entry's mask leaves out. -/
theorem encodeOfDecodedIsTheWord : Obligations.EncodeOfDecodedIsTheWord := by
  intro w i h
  obtain ⟨e, he, hm, rfl⟩ := exists_entry_of_decode h
  calc encode (e.build w) = (w &&& e.mask) ||| (w &&& ~~~e.mask) := by rw [encode_build w e he, hm]
    _ = w := by rw [← BitVec.and_or_distrib_left, BitVec.or_not_self, BitVec.and_allOnes]

/-- The two forms that R85 excepts are all there is. -/
theorem exceptional_of_not_wellFormed {i : Instr} (h : i.wellFormed ≠ true) :
    (∃ addr, i = .jumpIfEq 0 addr) ∨ ∃ t, i = .jumpWithTest 0 0#4 t := by
  cases i with
  | jumpIfEq r addr =>
    obtain rfl : r = 0 := not_not.mp (mt (wellFormed_jumpIfEq_iff r addr).mpr h)
    exact .inl ⟨addr, rfl⟩
  | jumpWithTest r x t =>
    obtain ⟨rfl, rfl⟩ : r = 0 ∧ x = 0#4 := not_not.mp (mt (wellFormed_jumpWithTest_iff r x t).mpr h)
    exact .inr ⟨t, rfl⟩
  | _ => exact absurd rfl h

/-- Settles O5: the word of an ill-formed instruction decodes to another variant. -/
theorem decodedInstructionsAreWellFormed : Obligations.DecodedInstructionsAreWellFormed := by
  intro w i h
  by_contra hwf
  obtain ⟨hjump, hjumpIndirect⟩ := illFormedVariantsActAsWhatTheyDecodeTo
  rw [← encodeOfDecodedIsTheWord w i h] at h
  obtain ⟨addr, rfl⟩ | ⟨t, rfl⟩ := exceptional_of_not_wellFormed hwf
  · cases h.symm.trans (hjump addr).1
  · cases h.symm.trans (hjumpIndirect t).1

/-! ### The map by the top nibble (30_encoding.md R82, R89) -/

/-- A field of a word, as a quotient and remainder of the word read as a number (R73). -/
theorem field_toNat (w : Word) (off len : Nat) : (w.extractLsb' off len).toNat = w.toNat / 2 ^ off % 2 ^ len := by
  rw [BitVec.extractLsb'_toNat, Nat.shiftRight_eq_div_pow]

/-- Every mask of the table keeps the top nibble. -/
theorem top_of_covers {e : Entry} {w : Word} (he : e ∈ decodeTable) (hc : e.covers w = true) :
    e.pattern.extractLsb' 12 4 = w.extractLsb' 12 4 := by
  have hmask : ∀ e ∈ decodeTable, e.mask.extractLsb' 12 4 = BitVec.allOnes 4 := by decide
  rw [← (covers_iff e w).mp hc, BitVec.extractLsb'_and, hmask e he, BitVec.and_allOnes]

/-- A word is invalid where the table has one pattern and mask for its top nibble and the word does not match them. -/
theorem decode_invalid {w : Word} {p : Nibble} (pattern mask : Word) (htop : w.extractLsb' 12 4 = p)
    (hone : ∀ e ∈ decodeTable, e.pattern.extractLsb' 12 4 = p → e.pattern = pattern ∧ e.mask = mask)
    (hw : w ≠ 0x0000#16) (hm : w &&& mask ≠ pattern) : decode w = .invalidInstruction w := by
  refine decode_of_find?_none hw (List.find?_eq_none.mpr fun e he hc => hm ?_)
  obtain ⟨rfl, rfl⟩ := hone e he ((top_of_covers he hc).trans htop)
  exact (covers_iff e w).mp hc

/-- The `k`-th entry decodes the words it matches, where what it builds is well-formed. -/
theorem decode_of_match {w : Word} (k : Fin 18) (hm : w &&& decodeTable[k].mask = decodeTable[k].pattern)
    (hwf : (decodeTable[k].build w).wellFormed = true) : decode w = .op (decodeTable[k].build w) :=
  decode_of_covers (List.getElem_mem _) ((covers_iff _ w).mpr hm) hwf

theorem word_eq_ofNat_iff (w : Word) {m : Nat} (hm : m < 65536) : w = BitVec.ofNat 16 m ↔ w.toNat = m := by
  rw [← BitVec.toNat_inj, BitVec.toNat_ofNat, Nat.mod_eq_of_lt hm]

/-- The top nibble, `word[15:12]`, as a quotient. -/
theorem top_eq_iff (w : Word) (p : Nibble) : w.extractLsb' 12 4 = p ↔ w.toNat / 4096 = p.toNat := by
  have := w.isLt
  rw [← BitVec.toNat_inj, field_toNat, Nat.mod_eq_of_lt (by omega)]
  rfl

/-- The masks of the table on a word whose top nibble is the pattern's: what is left to ask of the fields. -/
theorem mask_top_of_top {w : Word} (p : Nibble) (h : w.toNat / 4096 = p.toNat) : w &&& 0xF000#16 = place p 12 :=
  (mask_top w p).mpr ((top_eq_iff w p).mpr h)

theorem mask_byte_iff_of_top {w : Word} (p : Nibble) (h : w.toNat / 4096 = p.toNat) :
    w &&& 0xFF00#16 = place p 12 ↔ regField w 8 = 0 := by
  rw [mask_byte, and_iff_right ((top_eq_iff w p).mpr h), regField_eq_zero_iff]

theorem mask_rotate_iff_of_top {w : Word} (p : Nibble) (h : w.toNat / 4096 = p.toNat) :
    w &&& 0xF0F0#16 = place p 12 ↔ regField w 4 = 0 := by
  rw [mask_rotate, and_iff_right ((top_eq_iff w p).mpr h), regField_eq_zero_iff]

theorem mask_jumpIndirect_iff_of_top {w : Word} (p : Nibble) (h : w.toNat / 4096 = p.toNat) :
    w &&& 0xFFF0#16 = place p 12 ↔ regField w 8 = 0 ∧ regField w 4 = 0 := by
  rw [mask_jumpIndirect, and_iff_right ((top_eq_iff w p).mpr h), regField_eq_zero_iff, regField_eq_zero_iff]

/-- The mask of NoOp and Halt keeps the whole word. -/
theorem mask_whole_iff (w : Word) {m : Nat} (hm : m < 65536) : w &&& 0xFFFF#16 = BitVec.ofNat 16 m ↔ w.toNat = m := by
  rw [← word_eq_ofNat_iff w hm]
  exact Eq.congr_left BitVec.and_allOnes

/-- Where the `k`-th entry is the only one for the word's top nibble, its match alone decides. -/
theorem decode_of_only_entry {w : Word} {c : Prop} [Decidable c] (k : Fin 18) (p : Nibble)
    (htop : w.toNat / 4096 = p.toNat)
    (hone : ∀ e ∈ decodeTable, e.pattern.extractLsb' 12 4 = p →
      e.pattern = decodeTable[k].pattern ∧ e.mask = decodeTable[k].mask)
    (hw : w ≠ 0x0000#16) (hwf : (decodeTable[k].build w).wellFormed = true)
    (hc : w &&& decodeTable[k].mask = decodeTable[k].pattern ↔ c) :
    decode w = if c then .op (decodeTable[k].build w) else .invalidInstruction w := by
  split
  next h => exact decode_of_match k (hc.mpr h) hwf
  next h => exact decode_invalid _ _ ((top_eq_iff w p).mpr htop) hone hw (mt hc.mp h)

/-- Settles O6: by the top nibble, whose entries alone can match. -/
theorem opcodeMapByNibble : Obligations.OpcodeMapByNibble := by
  intro n hn w r s t b no
  have hwn : w.toNat = n := (word_eq_ofNat_iff w hn).mp rfl
  clear_value w
  subst hwn
  have hr : r = regField w 8 := Fin.ext (field_toNat w 8 4).symm
  have hs : s = regField w 4 := Fin.ext (field_toNat w 4 4).symm
  have ht : t = regField w 0 := Fin.ext (by simp [t, regField, RegIdx.ofNibble])
  have hb : b = byteField w := BitVec.eq_of_toNat_eq (by simp [b, byteField])
  have hx : BitVec.ofNat 4 (w.toNat / 16 % 16) = nibbleField w 4 :=
    BitVec.eq_of_toNat_eq (by simp [nibbleField, Nat.shiftRight_eq_div_pow])
  have hamount : BitVec.ofNat 4 (w.toNat % 16) = nibbleField w 0 := BitVec.eq_of_toNat_eq (by simp [nibbleField])
  rw [hr, hs, ht, hb, hx, hamount]
  generalize htop : w.toNat / 4096 = top
  have hlt : top < 16 := by omega
  have hw : top ≠ 0 → w ≠ 0x0000#16 := by
    rintro h0 rfl
    exact h0 htop.symm
  interval_cases top
  · show decode w = if w.toNat = 0 then _ else _
    split
    next hnull => rw [(word_eq_ofNat_iff w (m := 0) (by decide)).mpr hnull]; rfl
    next hnull =>
      exact decode_of_only_entry 0 0x0#4 htop (by decide)
        (mt (word_eq_ofNat_iff w (m := 0) (by decide)).mp hnull) rfl
        (mask_whole_iff w (m := 0x0FFF) (by decide))
  · exact decode_of_match 1 (mask_top_of_top 0x1#4 htop) rfl
  · exact decode_of_match 2 (mask_top_of_top 0x2#4 htop) rfl
  · exact decode_of_match 3 (mask_top_of_top 0x3#4 htop) rfl
  · exact decode_of_only_entry 4 0x4#4 htop (by decide) (hw (by decide)) rfl
      (mask_byte_iff_of_top 0x4#4 htop)
  · exact decode_of_match 5 (mask_top_of_top 0x5#4 htop) rfl
  · exact decode_of_match 6 (mask_top_of_top 0x6#4 htop) rfl
  · exact decode_of_match 7 (mask_top_of_top 0x7#4 htop) rfl
  · exact decode_of_match 8 (mask_top_of_top 0x8#4 htop) rfl
  · exact decode_of_match 9 (mask_top_of_top 0x9#4 htop) rfl
  · exact decode_of_only_entry 10 0xA#4 htop (by decide) (hw (by decide)) rfl
      (mask_rotate_iff_of_top 0xA#4 htop)
  · show decode w = if regField w 8 = 0 then _ else _
    split
    next hr => exact decode_of_match 11 ((mask_byte_iff_of_top 0xB#4 htop).mpr hr) rfl
    next hr => exact decode_of_match 12 (mask_top_of_top 0xB#4 htop) ((wellFormed_jumpIfEq_iff _ _).mpr hr)
  · exact decode_of_only_entry 13 0xC#4 htop (by decide) (hw (by decide)) rfl
      (mask_whole_iff w (m := 0xC000) (by decide))
  · exact decode_of_only_entry 14 0xD#4 htop (by decide) (hw (by decide)) rfl
      (mask_byte_iff_of_top 0xD#4 htop)
  · exact decode_of_only_entry 15 0xE#4 htop (by decide) (hw (by decide)) rfl
      (mask_byte_iff_of_top 0xE#4 htop)
  · show decode w = if regField w 8 = 0 ∧ regField w 4 = 0 then _ else _
    split
    next hrs => exact decode_of_match 16 ((mask_jumpIndirect_iff_of_top 0xF#4 htop).mpr hrs) rfl
    next hrs =>
      refine decode_of_match 17 (mask_top_of_top 0xF#4 htop) ?_
      rwa [regField_eq_zero_iff w 4, ← wellFormed_jumpWithTest_iff] at hrs

/-- Settles O8: the map of R89 answers that a word is invalid in six places. -/
theorem illegalWordsAreTheListedOnes : Obligations.IllegalWordsAreTheListedOnes := by
  intro n hn
  rw [opcodeMapByNibble n hn]
  simp only [ite_eq_iff, reduceCtorEq, Fin.ext_iff, Fin.val_zero, and_false, or_false, false_or, and_true]
  omega

/-- Settles O1, by running the decoder on the sixteen words. -/
theorem boundaryWordsDecodeAsTabled : Obligations.BoundaryWordsDecodeAsTabled := by
  unfold Obligations.BoundaryWordsDecodeAsTabled
  decide

end Sys2Proof
end

section
/-! PROOFS. The encodings written as numbers (30_encoding.md R72, R74, R84): the fields of a format do not overlap, so the
word is the sum of its fields, each at its weight. -/

namespace Sys2Proof

/-- A field that fits at its place weighs `2 ^ off`. -/
theorem place_toNat {n : Nat} (f : BitVec n) (off : Nat) (h : off + n ≤ 16) : (place f off).toNat = f.toNat * 2 ^ off := by
  have hlt : f.toNat * 2 ^ off < 2 ^ 16 := calc
    f.toNat * 2 ^ off < 2 ^ n * 2 ^ off := Nat.mul_lt_mul_of_pos_right f.isLt (Nat.two_pow_pos off)
    _ = 2 ^ (off + n) := by rw [← Nat.pow_add, Nat.add_comm]
    _ ≤ 2 ^ 16 := Nat.pow_le_pow_right (by decide) h
  rw [place, BitVec.toNat_shiftLeft, BitVec.toNat_setWidth_of_le (by omega), Nat.shiftLeft_eq, Nat.mod_eq_of_lt hlt]

/-- A field above a word that ends below it adds to the word. -/
theorem place_or_toNat {n : Nat} (f : BitVec n) (off : Nat) (w : Word) (h : off + n ≤ 16) (hw : w.toNat < 2 ^ off) :
    (place f off ||| w).toNat = f.toNat * 2 ^ off + w.toNat := by
  rw [BitVec.toNat_or, place_toNat f off h, ← Nat.shiftLeft_eq, Nat.shiftLeft_add_eq_or_of_lt hw]

theorem toNibble_toNat (r : RegIdx) : r.toNibble.toNat = r.val := rfl

/-- A word of format RA as a number: a nibble, a register and a byte. -/
theorem format_byte_eq_ofNat (p : Nibble) (r : RegIdx) (b : Byte) :
    place p 12 ||| placeReg r 8 ||| place b 0 = BitVec.ofNat 16 (p.toNat * 4096 + r.val * 256 + b.toNat) := by
  have hb : (place b 0).toNat = b.toNat := by simp [place_toNat]
  have hrb : (placeReg r 8 ||| place b 0).toNat = r.val * 2 ^ 8 + b.toNat := by
    rw [placeReg, place_or_toNat _ _ _ (by decide) (by omega), toNibble_toNat, hb]
  rw [BitVec.or_assoc, ← BitVec.toNat_inj, place_or_toNat _ _ _ (by decide) (by omega), hrb, BitVec.toNat_ofNat]
  omega

/-- A word of format ZRS as a number: a nibble, zeros and two registers. -/
theorem format_low_registers_eq_ofNat (p : Nibble) (r s : RegIdx) :
    place p 12 ||| placeReg r 4 ||| placeReg s 0 = BitVec.ofNat 16 (p.toNat * 4096 + r.val * 16 + s.val) := by
  have hs : (placeReg s 0).toNat = s.val := by simp [placeReg, place_toNat, toNibble_toNat]
  have hrs : (placeReg r 4 ||| placeReg s 0).toNat = r.val * 2 ^ 4 + s.val := by
    rw [placeReg, place_or_toNat _ _ _ (by decide) (by omega), toNibble_toNat, hs]
  rw [BitVec.or_assoc, ← BitVec.toNat_inj, place_or_toNat _ _ _ (by decide) (by omega), hrs, BitVec.toNat_ofNat]
  omega

theorem decode_of_encode_eq {i : Instr} {w : Word} (hw : encode i = w) (hwf : i.wellFormed = true) : decode w = .op i := by
  rw [← hw, decodeOfEncodedIsTheInstruction i hwf]

end Sys2Proof
end

section
/-! PROOFS. Data movement (40_data_movement.md): each load and the move is one register write, each store one memory write,
of a value and at an address read from the state before. -/

namespace Sys2Proof.Machine

/-- What a register write leaves unchanged. -/
theorem setReg_frame (s : State) (r : RegIdx) (v : Byte) :
    s.sameRegsBut (s.setReg r v) r ∧ s.sameMemory (s.setReg r v) ∧ (s.setReg r v).pc = s.pc
      ∧ s.sameControl (s.setReg r v) :=
  ⟨fun _ hq => setReg_reg_of_ne s v hq, fun a => setReg_load s r v a, rfl, rfl, rfl, rfl⟩

/-- What a store leaves unchanged beside memory. -/
theorem store_frame (s : State) (a v : Byte) :
    s.sameRegs (s.store a v) ∧ (s.store a v).pc = s.pc ∧ s.sameControl (s.store a v) :=
  ⟨fun q => store_reg s a v q, rfl, rfl, rfl, rfl⟩

theorem load_store_self {s : State} (h : Memory.wf s.memory = true) (a v : Byte) : (s.store a v).load a = v := by
  rw [load_store h, if_pos rfl]

/-- Writing back the value that a register holds changes no register. -/
theorem setReg_own_sameRegs (s : State) (r : RegIdx) : s.sameRegs (s.setReg r (s.reg r)) := by
  intro q
  rw [setReg_reg]
  split
  next hq => rw [hq]
  next => rfl

/-- Settles O15: one write of `x[r]`. -/
theorem loadMemoryLoadsTheAddressedByte : Obligations.LoadMemoryLoadsTheAddressedByte := by
  refine ⟨fun r addr => decode_of_encode_eq (format_byte_eq_ofNat 0x1#4 r addr) rfl, fun r addr s => ?_⟩
  exact ⟨s.setReg r (s.load (directAddr addr)), rfl, setReg_reg_self s r _, setReg_frame s r _⟩

/-- Settles O16: one write of `x[r]`, and an immediate is its raw byte. -/
theorem loadValueLoadsTheImmediate : Obligations.LoadValueLoadsTheImmediate := by
  refine ⟨fun r imm => decode_of_encode_eq (format_byte_eq_ofNat 0x2#4 r imm) rfl, fun r imm s => ?_⟩
  exact ⟨s.setReg r imm, rfl, setReg_reg_self s r imm, setReg_frame s r imm⟩

/-- Settles O17: one write of `x[r]`; the address is read from the state before it, so `r = a` is no special case. -/
theorem loadIndirectLoadsTheNamedByte : Obligations.LoadIndirectLoadsTheNamedByte := by
  refine ⟨fun r a => decode_of_encode_eq (format_low_registers_eq_ofNat 0xD#4 r a) rfl, fun r a s => ?_⟩
  exact ⟨s.setReg r (s.load (indirectAddr s a)), rfl, setReg_reg_self s r _, rfl, setReg_frame s r _⟩

/-- Settles O18: one store, at the instruction's own address. -/
theorem storeMemoryStoresTheRegister : Obligations.StoreMemoryStoresTheRegister := by
  refine ⟨fun r addr => decode_of_encode_eq (format_byte_eq_ofNat 0x3#4 r addr) rfl, fun r addr s hwf => ?_⟩
  exact ⟨s.store (directAddr addr) (s.reg r), rfl, load_store_self hwf _ _, store_sameMemoryBut hwf _ _, rfl,
    store_frame s _ _⟩

/-- Settles O19: one store, at the address that `x[a]` holds; no register is written, so `r = a` is no special case. -/
theorem storeIndirectStoresTheRegister : Obligations.StoreIndirectStoresTheRegister := by
  refine ⟨fun r a => decode_of_encode_eq (format_low_registers_eq_ofNat 0xE#4 r a) rfl, fun r a s hwf => ?_⟩
  exact ⟨s.store (indirectAddr s a) (s.reg r), rfl, load_store_self hwf _ _, store_sameMemoryBut hwf _ _, rfl,
    store_frame s _ _⟩

/-- Settles O20: one write of the second register; where the two are one, it writes back what the register holds. -/
theorem moveRegisterCopiesFirstIntoSecond : Obligations.MoveRegisterCopiesFirstIntoSecond := by
  refine ⟨fun r d => decode_of_encode_eq (format_low_registers_eq_ofNat 0x4#4 r d) rfl, fun r d s => ?_⟩
  obtain ⟨hregs, hrest⟩ := setReg_frame s d (s.reg r)
  refine ⟨s.setReg d (s.reg r), rfl, setReg_reg_self s d _, hregs, ?_, hrest⟩
  rintro rfl
  exact setReg_own_sameRegs s r

end Sys2Proof.Machine
end

section
/-! PROOFS. The encodings of the ALU's instructions written as numbers (30_encoding.md R72, R74, R84). -/

namespace Sys2Proof

/-- A word of format RST as a number: a nibble and three registers. -/
theorem format_three_registers_eq_ofNat (p : Nibble) (r a b : RegIdx) :
    place p 12 ||| placeReg r 8 ||| placeReg a 4 ||| placeReg b 0
      = BitVec.ofNat 16 (p.toNat * 4096 + r.val * 256 + a.val * 16 + b.val) := by
  have hb : (placeReg b 0).toNat = b.val := by simp [placeReg, place_toNat, toNibble_toNat]
  have hab : (placeReg a 4 ||| placeReg b 0).toNat = a.val * 2 ^ 4 + b.val := by
    rw [placeReg, place_or_toNat _ _ _ (by decide) (by omega), toNibble_toNat, hb]
  have hrab : (placeReg r 8 ||| (placeReg a 4 ||| placeReg b 0)).toNat = r.val * 2 ^ 8 + (a.val * 2 ^ 4 + b.val) := by
    rw [placeReg, place_or_toNat _ _ _ (by decide) (by omega), toNibble_toNat, hab]
  rw [BitVec.or_assoc, BitVec.or_assoc, ← BitVec.toNat_inj, place_or_toNat _ _ _ (by decide) (by omega), hrab,
    BitVec.toNat_ofNat]
  omega

/-- A word of format R0N as a number: a nibble, a register, zeros and a raw nibble. It is of format RA, with the raw nibble
as the byte. -/
theorem format_low_nibble_eq_ofNat (p : Nibble) (r : RegIdx) (n : Nibble) :
    place p 12 ||| placeReg r 8 ||| place n 0 = BitVec.ofNat 16 (p.toNat * 4096 + r.val * 256 + n.toNat) := by
  have hbyte : (n.setWidth 8).toNat = n.toNat := BitVec.toNat_setWidth_of_le (by decide)
  have hplace : place (n.setWidth 8) 0 = place n 0 := by
    rw [← BitVec.toNat_inj, place_toNat _ _ (by decide), place_toNat _ _ (by decide), hbyte]
  rw [← hplace, format_byte_eq_ofNat, hbyte]

end Sys2Proof
end

section
/-! PROOFS. The compact float (41_alu.md R122): its fields as digits of the byte, its value by sign and magnitude, and
packing as the inverse of reading the fields. -/

namespace Sys2Proof.Machine

/-! ### The fields and the value (41_alu.md R122) -/

theorem floatSign_eq_decide (v : Byte) : floatSign v = decide (128 ≤ v.toNat) :=
  (BitVec.msb_eq_getLsbD_last v).symm.trans (BitVec.msb_eq_decide v)

theorem floatExponent_eq_digit (v : Byte) : floatExponent v = v.toNat / 16 % 8 := by
  rw [floatExponent, BitVec.extractLsb'_toNat, Nat.shiftRight_eq_div_pow]

theorem floatMantissa_eq_digit (v : Byte) : floatMantissa v = v.toNat % 16 := by
  rw [floatMantissa, BitVec.extractLsb'_toNat, Nat.shiftRight_zero]

theorem fdec_of_negative {v : Byte} (h : floatSign v = true) :
    fdec v = -((floatMantissa v * 2 ^ floatExponent v : Nat) : Int) := by
  rw [fdec, if_pos h, Int.neg_one_mul]

theorem fdec_of_nonnegative {v : Byte} (h : floatSign v = false) :
    fdec v = ((floatMantissa v * 2 ^ floatExponent v : Nat) : Int) := by
  rw [fdec, h, if_neg Bool.false_ne_true, Int.one_mul]

/-- The sign bit does not reach the magnitude. -/
theorem natAbs_fdec (v : Byte) : (fdec v).natAbs = floatMantissa v * 2 ^ floatExponent v := by
  cases h : floatSign v with
  | true => rw [fdec_of_negative h, Int.natAbs_neg, Int.natAbs_natCast]
  | false => rw [fdec_of_nonnegative h, Int.natAbs_natCast]

/-- The largest magnitude is the largest mantissa at the largest exponent. -/
theorem natAbs_fdec_le (v : Byte) : (fdec v).natAbs ≤ 1920 := by
  have hm : floatMantissa v ≤ 15 := by rw [floatMantissa_eq_digit]; omega
  have he : floatExponent v ≤ 7 := by rw [floatExponent_eq_digit]; omega
  calc (fdec v).natAbs = floatMantissa v * 2 ^ floatExponent v := natAbs_fdec v
    _ ≤ 15 * 2 ^ 7 := Nat.mul_le_mul hm (Nat.pow_le_pow_right (by decide) he)

/-- The power of two is never zero, so the mantissa alone decides. -/
theorem fdec_eq_zero_iff (v : Byte) : fdec v = 0 ↔ floatMantissa v = 0 := by
  rw [← Int.natAbs_eq_zero, natAbs_fdec, mul_eq_zero, or_iff_left (Nat.two_pow_pos _).ne']

/-- A number is what its sign and its magnitude say. -/
theorem fdec_eq_of_sign_of_natAbs {v : Byte} {total : Int} (hsign : floatSign v = decide (total < 0))
    (hmag : (fdec v).natAbs = total.natAbs) : fdec v = total := by
  rw [natAbs_fdec] at hmag
  by_cases hneg : total < 0
  · rw [fdec_of_negative (hsign.trans (decide_eq_true hneg))]
    omega
  · rw [fdec_of_nonnegative (hsign.trans (decide_eq_false hneg))]
    omega

/-- The value in the digits of the byte. -/
theorem fdec_eq_digits (v : Byte) :
    fdec v = (1 - 2 * ((v.toNat / 128 : Nat) : Int)) * ((v.toNat % 16 : Nat) : Int) * 2 ^ (v.toNat / 16 % 8) := by
  rw [← floatMantissa_eq_digit, ← floatExponent_eq_digit]
  by_cases h : 128 ≤ v.toNat
  · have hdigit : v.toNat / 128 = 1 := by omega
    rw [fdec_of_negative ((floatSign_eq_decide v).trans (decide_eq_true h)), hdigit]
    push_cast
    ring
  · have hdigit : v.toNat / 128 = 0 := by omega
    rw [fdec_of_nonnegative ((floatSign_eq_decide v).trans (decide_eq_false h)), hdigit]
    push_cast
    ring

/-- Settles O23: the value by the byte's digits, its range by the largest magnitude, its zeros by the mantissa. -/
theorem compactFloatValue : Obligations.CompactFloatValue := by
  intro v
  have hrange := natAbs_fdec_le v
  refine ⟨fdec_eq_digits v, by omega, by omega, ?_, by decide, by decide⟩
  rw [fdec_eq_zero_iff, floatMantissa_eq_digit]

/-! ### Packing (41_alu.md R123) -/

theorem floatSign_floatPack (sign : Bool) (e m : Nat) : floatSign (floatPack sign e m) = sign := by
  rw [floatSign, floatPack, BitVec.getLsbD_append, if_neg (by decide), BitVec.getLsbD_append, if_neg (by decide),
    BitVec.getLsbD_ofBool]
  rfl

theorem floatExponent_floatPack (sign : Bool) {e : Nat} (m : Nat) (he : e < 8) :
    floatExponent (floatPack sign e m) = e := by
  rw [floatExponent, floatPack, BitVec.extractLsb'_append_eq_of_le (by decide), BitVec.extractLsb'_append_eq_right,
    BitVec.toNat_ofNat, Nat.mod_eq_of_lt he]

theorem floatMantissa_floatPack (sign : Bool) (e : Nat) {m : Nat} (hm : m < 16) :
    floatMantissa (floatPack sign e m) = m := by
  rw [floatMantissa, floatPack, BitVec.extractLsb'_append_eq_right, BitVec.toNat_ofNat, Nat.mod_eq_of_lt hm]

/-! ### Renormalisation (41_alu.md R123) -/

/-- `Nat.log2_lt` with zero let in, whose logarithm is 0. -/
theorem log2_lt_of_lt_two_pow {mag n : Nat} (hn : 0 < n) (h : mag < 2 ^ n) : mag.log2 < n := by
  rcases Nat.eq_zero_or_pos mag with rfl | hpos
  · exact hn
  · exact (Nat.log2_lt hpos.ne').mpr h

/-- The search finds the highest bit of a magnitude that it starts above: bit 3 of `mag >> e` is bit `e + 3` of `mag`. -/
theorem floatExcess_eq_log2 {mag e : Nat} (h : mag < 2 ^ (e + 4)) : floatExcess mag e = mag.log2 - 3 := by
  induction e with
  | zero =>
    have hlog : mag.log2 < 4 := log2_lt_of_lt_two_pow (by decide) h
    rw [floatExcess]
    omega
  | succ e ih =>
    have hbit : (mag >>> (e + 1)).testBit 3 = mag.testBit (e + 4) := Nat.testBit_shiftRight mag
    rw [floatExcess, hbit]
    by_cases hlow : mag < 2 ^ (e + 4)
    · rw [Nat.testBit_lt_two_pow hlow, if_neg Bool.false_ne_true, ih hlow]
    · have hge : 2 ^ (e + 4) ≤ mag := Nat.le_of_not_lt hlow
      have hlog : mag.log2 = e + 4 := (Nat.log2_eq_iff ((Nat.two_pow_pos _).trans_le hge).ne').mpr ⟨hge, h⟩
      rw [Nat.testBit_of_two_pow_le_and_two_pow_add_one_gt hge h, if_pos rfl, hlog]
      omega

/-- Shifted down by the excess, a magnitude fits the four bits of a mantissa. -/
theorem div_two_pow_log2_sub_lt (mag : Nat) : mag / 2 ^ (mag.log2 - 3) < 16 := by
  rw [Nat.div_lt_iff_lt_mul (Nat.two_pow_pos _)]
  calc mag < 2 ^ (mag.log2 + 1) := Nat.lt_log2_self
    _ ≤ 2 ^ (4 + (mag.log2 - 3)) := Nat.pow_le_pow_right (by decide) (by omega)
    _ = 16 * 2 ^ (mag.log2 - 3) := Nat.pow_add 2 4 _

/-- From 8 up, the mantissa so found has its highest bit set. -/
theorem eight_le_div_two_pow_log2_sub {mag : Nat} (h : 8 ≤ mag) : 8 ≤ mag / 2 ^ (mag.log2 - 3) := by
  have hne : mag ≠ 0 := by omega
  have hlog : 3 ≤ mag.log2 := (Nat.le_log2 hne).mpr h
  rw [Nat.le_div_iff_mul_le (Nat.two_pow_pos _)]
  calc 8 * 2 ^ (mag.log2 - 3) = 2 ^ (3 + (mag.log2 - 3)) := (Nat.pow_add 2 3 _).symm
    _ = 2 ^ mag.log2 := by rw [Nat.add_sub_cancel' hlog]
    _ ≤ mag := Nat.log2_self_le hne

/-- Below 2048 the exponent that the search finds fits, and the sum is packed with its low bits dropped. -/
theorem floatNormalise_of_lt {total : Int} (hne : total ≠ 0) (hlt : total.natAbs < 2048) :
    floatNormalise total = floatPack (decide (total < 0)) (total.natAbs.log2 - 3)
      (total.natAbs / 2 ^ (total.natAbs.log2 - 3)) := by
  have hexcess : floatExcess total.natAbs 8 = total.natAbs.log2 - 3 :=
    floatExcess_eq_log2 (by omega)
  have hlog : total.natAbs.log2 < 11 := log2_lt_of_lt_two_pow (by decide) hlt
  have hfit := div_two_pow_log2_sub_lt total.natAbs
  simp only [floatNormalise, if_neg hne, hexcess]
  rw [if_neg (by omega), Nat.shiftRight_eq_div_pow, Nat.mod_eq_of_lt hfit]

/-- From 2048 up the search answers 8, and the result is the largest float of the sum's sign. -/
theorem floatNormalise_of_ge {total : Int} (hge : 2048 ≤ total.natAbs) (hlt : total.natAbs < 4096) :
    floatNormalise total = floatPack (decide (total < 0)) 7 15 := by
  have hne : total ≠ 0 := by omega
  have hexcess : floatExcess total.natAbs 8 = total.natAbs.log2 - 3 := floatExcess_eq_log2 hlt
  have hlog : 11 ≤ total.natAbs.log2 := (Nat.le_log2 (Int.natAbs_ne_zero.mpr hne)).mpr hge
  simp only [floatNormalise, if_neg hne, hexcess]
  rw [if_pos (by omega)]

theorem floatSign_floatNormalise {total : Int} (hne : total ≠ 0) (hlt : total.natAbs < 4096) :
    floatSign (floatNormalise total) = decide (total < 0) := by
  by_cases hlow : total.natAbs < 2048
  · rw [floatNormalise_of_lt hne hlow, floatSign_floatPack]
  · rw [floatNormalise_of_ge (by omega) hlt, floatSign_floatPack]

theorem floatExponent_floatNormalise {total : Int} (hne : total ≠ 0) (hlt : total.natAbs < 2048) :
    floatExponent (floatNormalise total) = total.natAbs.log2 - 3 := by
  have hlog : total.natAbs.log2 < 11 := log2_lt_of_lt_two_pow (by decide) hlt
  rw [floatNormalise_of_lt hne hlt, floatExponent_floatPack _ _ (by omega)]

theorem floatMantissa_floatNormalise {total : Int} (hne : total ≠ 0) (hlt : total.natAbs < 2048) :
    floatMantissa (floatNormalise total) = total.natAbs / 2 ^ (total.natAbs.log2 - 3) := by
  rw [floatNormalise_of_lt hne hlt, floatMantissa_floatPack _ _ (div_two_pow_log2_sub_lt _)]

/-- Below 8 nothing is shifted out. -/
theorem log2_sub_three_of_lt {mag : Nat} (hlt : mag < 8) : mag.log2 - 3 = 0 := by
  have hlog : mag.log2 < 3 := log2_lt_of_lt_two_pow (by decide) hlt
  omega

theorem floatNormalise_saturated {total : Int} (hge : 2048 ≤ total.natAbs) (hlt : total.natAbs < 4096) :
    floatNormalise total = if total < 0 then 0xFF#8 else 0x7F#8 := by
  rw [floatNormalise_of_ge hge hlt]
  split
  next hneg => rw [decide_eq_true hneg]; rfl
  next hneg => rw [decide_eq_false hneg]; rfl

/-- The mantissa of a sum that is not zero is not zero. -/
theorem floatMantissa_floatNormalise_pos {total : Int} (hne : total ≠ 0) (hlt : total.natAbs < 4096) :
    0 < floatMantissa (floatNormalise total) := by
  by_cases hlow : total.natAbs < 2048
  · rw [floatMantissa_floatNormalise hne hlow]
    by_cases hsmall : total.natAbs < 8
    · rw [log2_sub_three_of_lt hsmall]
      omega
    · have := eight_le_div_two_pow_log2_sub (Nat.le_of_not_lt hsmall)
      omega
  · rw [floatNormalise_of_ge (by omega) hlt, floatMantissa_floatPack _ _ (by decide)]
    decide

/-- No sum gives the negative zero 0x80: zero gives 0x00, and every other sum a mantissa that is not zero. -/
theorem floatNormalise_ne_negative_zero {total : Int} (hlt : total.natAbs < 4096) : floatNormalise total ≠ 0x80#8 := by
  intro h
  by_cases hzero : total = 0
  · subst hzero
    exact absurd h (by decide)
  · have hpos := floatMantissa_floatNormalise_pos hzero hlt
    rw [h] at hpos
    exact absurd hpos (by decide)

/-- Settles O25: two floats sum to a magnitude below 4096, where the search of R123 finds the highest bit, so each clause is
what renormalisation does with a sum of that size. -/
theorem addFloatTruncatesAndSaturates : Obligations.AddFloatTruncatesAndSaturates := by
  intro a b total mag k v
  have hlt : total.natAbs < 4096 := by
    have ha := natAbs_fdec_le a
    have hb := natAbs_fdec_le b
    omega
  refine ⟨fun hzero => congrArg floatNormalise hzero, fun hne => floatSign_floatNormalise hne hlt, ?_, ?_,
    fun hge => floatNormalise_saturated hge hlt, floatNormalise_ne_negative_zero hlt⟩
  · rintro ⟨hpos, hsmall⟩
    have hne : total ≠ 0 := Int.natAbs_pos.mp hpos
    have hk : k = 0 := log2_sub_three_of_lt hsmall
    have hexp : floatExponent v = 0 := (floatExponent_floatNormalise hne (by omega)).trans hk
    have hman : floatMantissa v = mag := by
      calc floatMantissa v = mag / 2 ^ k := floatMantissa_floatNormalise hne (by omega)
        _ = mag := by rw [hk, Nat.pow_zero, Nat.div_one]
    refine ⟨hexp, hman, fdec_eq_of_sign_of_natAbs (floatSign_floatNormalise hne hlt) ?_⟩
    rw [natAbs_fdec, hexp, hman, Nat.pow_zero, Nat.mul_one]
  · rintro ⟨hge, hlow⟩
    have hne : total ≠ 0 := Int.natAbs_pos.mp (by omega)
    have hexp : floatExponent v = k := floatExponent_floatNormalise hne hlow
    have hman : floatMantissa v = mag / 2 ^ k := floatMantissa_floatNormalise hne hlow
    refine ⟨hexp, hman, ?_, ?_⟩
    · rw [hman]
      exact eight_le_div_two_pow_log2_sub hge
    · rw [natAbs_fdec, hexp, hman]

end Sys2Proof.Machine
end

section
/-! PROOFS. The ALU's instructions (41_alu.md): each is one write of `x[r]` with a value of the registers read before it,
but for the shift that errs, which writes the latch alone. -/

namespace Sys2Proof.Machine

/-! ### Integer add (41_alu.md R121) -/

/-- Modulo 256 the signed and the unsigned reading of a byte are one number. -/
theorem addInt_eq_add (a b : Byte) : addInt a b = a + b := by
  rw [addInt, BitVec.ofInt_add, BitVec.ofInt_toInt, BitVec.ofInt_toInt]

/-- Settles O22: the byte sum, read as unsigned numbers and as signed ones. -/
theorem signedAndUnsignedSumsAgree : Obligations.SignedAndUnsignedSumsAgree := by
  intro a b
  refine ⟨?_, ?_, ?_⟩
  · rw [addInt_eq_add, BitVec.ofNat_add, BitVec.ofNat_toNat, BitVec.ofNat_toNat, BitVec.setWidth_eq, BitVec.setWidth_eq]
  · rw [addInt_eq_add, BitVec.toInt_add]
  · rw [addInt_eq_add, addInt_eq_add, BitVec.add_comm]

/-- Settles O21: one write of `x[r]`, of the byte sum. -/
theorem addIntegerAddsModulo256 : Obligations.AddIntegerAddsModulo256 := by
  refine ⟨fun r a b => decode_of_encode_eq (format_three_registers_eq_ofNat 0x5#4 r a b) rfl, fun r a b s => ?_⟩
  refine ⟨s.setReg r (addInt (s.reg b) (s.reg a)), rfl, ?_, setReg_frame s r _⟩
  rw [setReg_reg_self, addInt_eq_add, BitVec.toNat_add]

/-! ### Float add (41_alu.md R124) -/

theorem addFloat_comm (a b : Byte) : addFloat a b = addFloat b a :=
  congrArg floatNormalise (Int.add_comm (fdec a) (fdec b))

/-- Settles O24: one write of `x[r]`; the exact sum is symmetric, and the rest depends on it alone. -/
theorem addFloatWritesTheFloatSum : Obligations.AddFloatWritesTheFloatSum := by
  refine ⟨fun r a b => decode_of_encode_eq (format_three_registers_eq_ofNat 0x6#4 r a b) rfl, fun r a b s => ?_⟩
  exact ⟨s.setReg r (addFloat (s.reg a) (s.reg b)), rfl, setReg_reg_self s r _, addFloat_comm _ _, setReg_frame s r _⟩

/-! ### Bitwise logic (41_alu.md R125 to R127) -/

/-- Settles O26: one write of `x[r]`, whose bits are those of the OR. -/
theorem bitwiseOrIsOrOfEveryBit : Obligations.BitwiseOrIsOrOfEveryBit := by
  refine ⟨fun r a b => decode_of_encode_eq (format_three_registers_eq_ofNat 0x7#4 r a b) rfl, fun r a b s => ?_⟩
  refine ⟨s.setReg r (s.reg b ||| s.reg a), rfl, fun k => ?_, setReg_frame s r _⟩
  rw [setReg_reg_self, BitVec.getLsbD_or]

/-- Settles O27: one write of `x[r]`, whose bits are those of the AND. -/
theorem bitwiseAndIsAndOfEveryBit : Obligations.BitwiseAndIsAndOfEveryBit := by
  refine ⟨fun r a b => decode_of_encode_eq (format_three_registers_eq_ofNat 0x8#4 r a b) rfl, fun r a b s => ?_⟩
  refine ⟨s.setReg r (s.reg b &&& s.reg a), rfl, fun k => ?_, setReg_frame s r _⟩
  rw [setReg_reg_self, BitVec.getLsbD_and]

/-- Settles O28: one write of `x[r]`, whose bits are those of the XOR; a register clears itself. -/
theorem bitwiseXorIsXorOfEveryBit : Obligations.BitwiseXorIsXorOfEveryBit := by
  refine ⟨fun r a b => decode_of_encode_eq (format_three_registers_eq_ofNat 0x9#4 r a b) rfl, fun r a b s => ?_⟩
  refine ⟨s.setReg r (s.reg b ^^^ s.reg a), rfl, fun k => ?_, ?_, setReg_frame s r _⟩
  · rw [setReg_reg_self, BitVec.getLsbD_xor]
  · rintro rfl
    rw [setReg_reg_self, BitVec.xor_self]

/-! ### The shift (41_alu.md R128 to R130) -/

/-- The shifter below 8, under every value of the parameter. -/
theorem shr_of_lt (mode : ShiftGE8) (a : Byte) {n : Nibble} (h : n.toNat < 8) : shr mode a n = .ok (a >>> n.toNat) :=
  if_pos h

theorem ushiftRight_toNat_eq_div (a : Byte) (n : Nat) : (a >>> n).toNat = a.toNat / 2 ^ n := by
  rw [BitVec.toNat_ushiftRight, Nat.shiftRight_eq_div_pow]

/-- Settles O29: the shifter answers the shifted byte, as a quotient and by its bits; past bit 7 the byte reads as zeros. -/
theorem shifterIsLogicalBelowEight : Obligations.ShifterIsLogicalBelowEight := by
  intro mode a n hn
  refine ⟨a >>> n.toNat, shr_of_lt mode a hn, ushiftRight_toNat_eq_div a n.toNat, fun k _ => ?_⟩
  rw [BitVec.getLsbD_ushiftRight, Nat.add_comm]
  split
  next => rfl
  next hout => exact BitVec.getLsbD_of_ge a _ (Nat.le_of_not_lt hout)

/-- What the shifter answers where it raises no error. -/
theorem shr_ok_toNat (mode : ShiftGE8) (a : Byte) {n : Nibble} (h : n.toNat < 8 ∨ mode ≠ .fault) :
    ∃ v : Byte, shr mode a n = .ok v ∧ v.toNat =
      (if n.toNat < 8 then a.toNat / 2 ^ n.toNat else if mode = .zero then 0 else a.toNat / 2 ^ (n.toNat - 8)) := by
  rcases shr_cases mode a n with ⟨hn, hshr⟩ | ⟨hn, rfl, hshr⟩ | ⟨hn, rfl, hshr⟩ | ⟨hn, hmode, -⟩
  · refine ⟨_, hshr, ?_⟩
    rw [if_pos hn, ushiftRight_toNat_eq_div]
  · refine ⟨_, hshr, ?_⟩
    rw [if_neg (Nat.not_lt.mpr hn), if_pos rfl]
    rfl
  · refine ⟨_, hshr, ?_⟩
    have hmod : n.toNat % 8 = n.toNat - 8 := by omega
    rw [if_neg (Nat.not_lt.mpr hn), if_neg (by decide), ushiftRight_toNat_eq_div, hmod]
  · exact absurd h (not_or.mpr ⟨Nat.not_lt.mpr hn, not_not_intro hmode⟩)

/-- Settles O30: one write of `x[r]`, of what the shifter answers. -/
theorem bitwiseRotateShiftsTheRegister : Obligations.BitwiseRotateShiftsTheRegister := by
  refine ⟨fun r n => decode_of_encode_eq (format_low_nibble_eq_ofNat 0xA#4 r n) rfl, fun r n s h => ?_⟩
  obtain ⟨v, hshr, hv⟩ := shr_ok_toNat s.config.shiftGE8 (s.reg r) h
  refine ⟨s.setReg r v, exec_bitwiseRotate_of_ok hshr, ?_, setReg_frame s r v⟩
  rw [setReg_reg_self, hv]

/-- The shifter from 8 up under `SHIFT_GE8 = Fault`. -/
theorem shr_fault_of_ge (a : Byte) {n : Nibble} (h : 8 ≤ n.toNat) : shr .fault a n = .error (.shiftOutOfRange n) :=
  if_neg (Nat.not_lt.mpr h)

/-- Settles O31: the shifter's error is taken by `State.fail`, which writes the pc and the latch alone. -/
theorem shiftOutOfRangeIsLatched : Obligations.ShiftOutOfRangeIsLatched := by
  intro r n s hn hmode
  have hshr : shr s.config.shiftGE8 (s.reg r) n = .error (.shiftOutOfRange n) := by
    rw [hmode]
    exact shr_fault_of_ge (s.reg r) hn
  exact ⟨s.fail s.instrAddr (.shiftOutOfRange n), exec_bitwiseRotate_of_error hshr, fail_fault s _ _, fail_pc s _ _,
    fail_reg s _ _, fun a => fail_load s _ a _, fail_running s _ _, fail_config s _ _⟩

end Sys2Proof.Machine
end

section
/-! PROOFS. The encodings of the jumps written as numbers (30_encoding.md R72, R74, R84). -/

namespace Sys2Proof

@[simp] theorem placeReg_zero (off : Nat) : placeReg 0 off = 0#16 := place_zero 4 off

/-- Jump has the word that JumpIfEq has with R0 (R85). -/
theorem encode_jumpIfEq_zero (addr : Byte) : encode (.jumpIfEq 0 addr) = encode (.jump addr) := by
  simp only [encode, placeReg_zero, BitVec.or_zero]

theorem encode_jumpIfEq_eq_ofNat (r : RegIdx) (addr : Byte) :
    encode (.jumpIfEq r addr) = BitVec.ofNat 16 (0xB000 + r.val * 256 + addr.toNat) :=
  format_byte_eq_ofNat 0xB#4 r addr

theorem encode_jump_eq_ofNat (addr : Byte) : encode (.jump addr) = BitVec.ofNat 16 (0xB000 + addr.toNat) :=
  (encode_jumpIfEq_zero addr).symm.trans (encode_jumpIfEq_eq_ofNat 0 addr)

/-- The word is of format ZRS with R0 as its first register. -/
theorem encode_jumpIndirect_eq_ofNat (t : RegIdx) : encode (.jumpIndirect t) = BitVec.ofNat 16 (0xF000 + t.val) := by
  have hword := format_low_registers_eq_ofNat 0xF#4 0 t
  rw [placeReg_zero, BitVec.or_zero] at hword
  exact hword

/-- The word is of format RST, with the selector in the place of the second register. -/
theorem encode_jumpWithTest_eq_ofNat (r : RegIdx) (x : Nibble) (t : RegIdx) :
    encode (.jumpWithTest r x t) = BitVec.ofNat 16 (0xF000 + r.val * 256 + x.toNat * 16 + t.val) :=
  format_three_registers_eq_ofNat 0xF#4 r (RegIdx.ofNibble x) t

end Sys2Proof
end

section
/-! PROOFS. Control transfer (42_control.md): the PC incrementer, the comparison unit, and the jumps, each one
`State.jumpIf`. -/

namespace Sys2Proof.Machine

/-! ### The PC incrementer (42_control.md R150) -/

/-- The incrementer where the sum fits in a byte, under either value of the parameter. -/
theorem pcSeq_of_le (mode : PcAdvanceOverflow) {a : Byte} (h : a.toNat ≤ 0xFD) : pcSeq mode a = .ok (a + 2#8) :=
  if_pos h

/-- Settles O32: up to 0xFD the byte sum does not overflow, and at 0xFE the parameter decides. -/
theorem pcAdvancesByTwo : Obligations.PcAdvancesByTwo := by
  refine fun mode a => ⟨fun h => ⟨a + 2#8, pcSeq_of_le mode h, ?_⟩, ?_⟩
  · rw [BitVec.toNat_add, BitVec.toNat_ofNat]
    omega
  · rintro rfl
    rcases pcSeq_cases mode 0xFE#8 with ⟨hle, -⟩ | ⟨-, rfl, hseq⟩ | ⟨-, rfl, hseq⟩
    · exact absurd hle (by decide)
    · rw [hseq, if_pos rfl]
    · rw [hseq, if_neg (by decide)]

/-! ### The comparison unit (42_control.md R151) -/

/-- The six codes of D2, each the only one for its predicate. -/
theorem selectorPredicate_eq_iff (x : Nibble) :
    (selectorPredicate x = .equal ↔ x = 0#4) ∧ (selectorPredicate x = .notEqual ↔ x = 1#4)
    ∧ (selectorPredicate x = .greaterOrEqual ↔ x = 2#4) ∧ (selectorPredicate x = .lessOrEqual ↔ x = 3#4)
    ∧ (selectorPredicate x = .greater ↔ x = 4#4) ∧ (selectorPredicate x = .less ↔ x = 5#4) := by
  revert x
  decide

/-- Where a predicate holds of two bytes; Never is in no case. -/
theorem comparePredicate_iff (p : Predicate) (a b : Byte) :
    comparePredicate p a b = true ↔
      (p = .equal ∧ a.toNat = b.toNat) ∨ (p = .notEqual ∧ a.toNat ≠ b.toNat) ∨ (p = .greaterOrEqual ∧ b.toNat ≤ a.toNat)
      ∨ (p = .lessOrEqual ∧ a.toNat ≤ b.toNat) ∨ (p = .greater ∧ b.toNat < a.toNat) ∨ (p = .less ∧ a.toNat < b.toNat) := by
  cases p <;> simp [comparePredicate]

/-- Settles O33: the comparison by predicate, with each predicate's code in its place. -/
theorem comparisonIsUnsignedBySelector : Obligations.ComparisonIsUnsignedBySelector := by
  intro x a b
  obtain ⟨heq, hne, hge, hle, hgt, hlt⟩ := selectorPredicate_eq_iff x
  rw [compareTest, comparePredicate_iff, heq, hne, hge, hle, hgt, hlt]

/-! ### What a jump leaves unchanged, and where it fails (42_control.md R152, R157) -/

theorem jumpIf_frame (s : State) (taken : Bool) (target : Byte) :
    s.sameRegs (s.jumpIf taken target) ∧ s.sameMemory (s.jumpIf taken target) ∧ s.sameControl (s.jumpIf taken target) :=
  ⟨fun q => jumpIf_reg s taken target q, fun a => jumpIf_load s taken target a, rfl, rfl, rfl⟩

/-- The error of a jump to 0xFF is the next fetch's (D6; log 8). -/
theorem fetch_jumpIf_of_eq_0xFF (s : State) {taken : Bool} {target : Byte} (htaken : taken = true)
    (htarget : target = 0xFF#8) : fetch (s.jumpIf taken target) = .error (.fetchOutOfRange 0xFF#8) := by
  refine (fetch_error_iff _ _).mpr ⟨?_, rfl⟩
  rw [jumpIf_pc, if_pos htaken, htarget]

theorem jumpIf_eq_setPc_or_eq (s : State) (taken : Bool) (target : Byte) :
    s.jumpIf taken target = s.setPc target ∨ s.jumpIf taken target = s :=
  (jumpIf_cases s taken target).imp And.right And.right

/-- Settles O48: the jumps end in `State.jumpIf`, and of the others only the erring shift writes the pc. -/
theorem onlyJumpsRedirectThePc : Obligations.OnlyJumpsRedirectThePc := by
  intro i s t h _
  cases i with
  | jumpIfEq r addr =>
    obtain rfl := Host.Outcome.next.inj h
    exact jumpIf_eq_setPc_or_eq s _ addr
  | jumpWithTest r x a =>
    obtain rfl := Host.Outcome.next.inj h
    exact jumpIf_eq_setPc_or_eq s _ (s.reg a)
  | bitwiseRotate r n =>
    cases hshr : shr s.config.shiftGE8 (s.reg r) n with
    | ok v =>
      obtain rfl := Host.Outcome.next.inj ((exec_bitwiseRotate_of_ok hshr).symm.trans h)
      exact .inl (setReg_pc s r v)
    | error k =>
      obtain ⟨-, hn, hmode⟩ := shr_error hshr
      exact .inr ⟨hn, hmode⟩
  | _ =>
    obtain rfl := Host.Outcome.next.inj h
    rfl

/-! ### One step without a failing stage (44_execution_cycle.md R181) -/

/-- What the stages before execute hand on when each passes: the converse of `prepare_ok`. -/
theorem prepare_of_stages {s : State} {i : Instr} {next : Byte} (hpc : s.pc.toNat ≤ 0xFE) (hd : decode s.wordAtPc = .op i)
    (hseq : pcSeq s.config.pcAdvanceOverflow s.pc = .ok next) : prepare s = .ok (i, s.setPc next) := by
  have hfetch : fetch s = .ok s.wordAtPc := fetch_of_pc_le hpc
  have hdecode : decodeStage s.wordAtPc = .ok i := (decodeStage_ok_iff _ i).mpr hd
  simp only [prepare, hfetch, hdecode, hseq]

theorem step_of_stages {s : State} {i : Instr} {next : Byte} (hrun : s.isRunning) (hpc : s.pc.toNat ≤ 0xFE)
    (hd : decode s.wordAtPc = .op i) (hseq : pcSeq s.config.pcAdvanceOverflow s.pc = .ok next) :
    step s = exec i (s.setPc next) := by
  rw [step_running hrun, stepRunning, prepare_of_stages hpc hd hseq]

/-! ### The jumps (42_control.md R153 to R156) -/

/-- Settles O34: one jump, always taken; to itself, it undoes the step's advance. -/
theorem jumpSetsThePc : Obligations.JumpSetsThePc := by
  have hdecode (addr : Byte) : decode (BitVec.ofNat 16 (0xB000 + addr.toNat)) = .op (.jump addr) :=
    decode_of_encode_eq (encode_jump_eq_ofNat addr) rfl
  refine ⟨fun addr => ⟨hdecode addr, (encode_jumpIfEq_zero addr).trans (encode_jump_eq_ofNat addr)⟩, fun addr s => ?_,
    fun _ => rfl, fun s hrun hpc hword => ?_⟩
  · obtain ⟨hregs, hmem, hcontrol⟩ := jumpIf_frame s true (directTarget addr)
    exact ⟨s.jumpIf true (directTarget addr), rfl, rfl, rfl, hregs, hmem, hcontrol, fetch_jumpIf_of_eq_0xFF s rfl⟩
  · have hd : decode s.wordAtPc = .op (.jump s.pc) := by rw [hword, hdecode]
    rw [step_of_stages hrun (by omega) hd (pcSeq_of_le _ hpc)]
    rfl

/-- Settles O35: one jump, taken on the equality of the two bytes. -/
theorem jumpIfEqJumpsOnEquality : Obligations.JumpIfEqJumpsOnEquality := by
  refine ⟨fun r addr hr => decode_of_encode_eq (encode_jumpIfEq_eq_ofNat r addr) ((wellFormed_jumpIfEq_iff r addr).mpr hr),
    fun r addr s => ?_⟩
  obtain ⟨hregs, hmem, hcontrol⟩ := jumpIf_frame s (s.reg r == s.reg 0) (directTarget addr)
  refine ⟨s.jumpIf (s.reg r == s.reg 0) (directTarget addr), rfl, ?_, rfl, hregs, hmem, hcontrol,
    fun heq => fetch_jumpIf_of_eq_0xFF s (beq_iff_eq.mpr heq)⟩
  rw [jumpIf_pc]
  exact if_congr beq_iff_eq rfl rfl

/-- Settles O36: one jump, always taken, to the value of the register. -/
theorem jumpIndirectSetsThePcFromARegister : Obligations.JumpIndirectSetsThePcFromARegister := by
  refine ⟨fun a => decode_of_encode_eq (encode_jumpIndirect_eq_ofNat a) rfl, fun a s => ?_⟩
  obtain ⟨hregs, hmem, hcontrol⟩ := jumpIf_frame s true (indirectTarget s a)
  exact ⟨s.jumpIf true (indirectTarget s a), rfl, rfl, rfl, hregs, hmem, hcontrol, fetch_jumpIf_of_eq_0xFF s rfl⟩

/-- Settles O37: one jump, taken as the comparison unit says; bytes are equal where their numbers are. -/
theorem jumpWithTestJumpsWhereTheTestHolds : Obligations.JumpWithTestJumpsWhereTheTestHolds := by
  refine ⟨fun r x a h => ?_, fun r x a s => ?_⟩
  · exact decode_of_encode_eq (encode_jumpWithTest_eq_ofNat r x a) ((wellFormed_jumpWithTest_iff r x a).mpr h)
  · have htest := comparisonIsUnsignedBySelector x (s.reg r) (s.reg 0)
    rw [Ne, BitVec.toNat_inj] at htest
    refine ⟨s.jumpIf (compareTest x (s.reg r) (s.reg 0)) (indirectTarget s a), rfl, ?_, jumpIf_frame s _ _⟩
    rw [jumpIf_pc]
    exact if_congr htest rfl rfl

end Sys2Proof.Machine
end

section
/-! PROOFS. The system instructions (43_system.md): NoOp ends in no operation and Halt in `State.stop`, so what a step of
either does is the sequencer's advance, and what stops the loop is the state that Halt leaves. -/

namespace Sys2Proof.Machine

/-- The two round trips of R85 together: a well-formed instruction is decoded from its own word and from no other. -/
theorem decode_eq_op_iff (w : Word) {i : Instr} (hwf : i.wellFormed = true) : decode w = .op i ↔ w = encode i :=
  ⟨fun h => (encodeOfDecodedIsTheWord w i h).symm, fun h => decode_of_encode_eq h.symm hwf⟩

/-! ### Where the advance fails (42_control.md R150) -/

theorem pcSeq_fault_of_gt {a : Byte} (h : 0xFD < a.toNat) : pcSeq .fault a = .error (.pcOverflow a) :=
  if_neg (by omega)

/-- What the stages before execute hand on when the advance is the first to fail. -/
theorem prepare_of_pcSeq_error {s : State} {i : Instr} {k : FaultKind} (hpc : s.pc.toNat ≤ 0xFE)
    (hd : decode s.wordAtPc = .op i) (hseq : pcSeq s.config.pcAdvanceOverflow s.pc = .error k) :
    prepare s = .error k := by
  have hfetch : fetch s = .ok s.wordAtPc := fetch_of_pc_le hpc
  have hdecode : decodeStage s.wordAtPc = .ok i := (decodeStage_ok_iff _ i).mpr hd
  simp only [prepare, hfetch, hdecode, hseq]

theorem step_of_prepare_error {s : State} {k : FaultKind} (hrun : s.isRunning) (h : prepare s = .error k) :
    step s = .next (s.fail s.pc k) := by
  rw [step_running hrun, stepRunning, h]

/-- Settles O38: the step is the advance alone, and where the advance fails NoOp does not run. -/
theorem noOpOnlyAdvancesThePc : Obligations.NoOpOnlyAdvancesThePc := by
  have hdecode (w : Word) : decode w = .op .noOp ↔ w = 0x0FFF#16 := decode_eq_op_iff w rfl
  refine ⟨(hdecode _).mpr rfl, fun _ => rfl, fun s hrun hword hpc => ?_, fun s hrun hword hpc hmode => ?_⟩
  · exact step_of_stages hrun (by omega) ((hdecode _).mpr hword) (pcSeq_of_le _ hpc)
  · obtain ⟨hgt, hle⟩ : 0xFD < s.pc.toNat ∧ s.pc.toNat ≤ 0xFE := by rw [hpc]; decide
    have hseq : pcSeq s.config.pcAdvanceOverflow s.pc = .error (.pcOverflow s.pc) := by
      rw [hmode, pcSeq_fault_of_gt hgt]
    rw [step_of_prepare_error hrun (prepare_of_pcSeq_error hle ((hdecode _).mpr hword) hseq), ← hpc]
    rfl

/-! ### Where the loop stops by Halt (44_execution_cycle.md R188, R190) -/

theorem outcomeOf_of_stopped {t : State} (h : t.running = false) : outcomeOf t = .halts := by
  rw [outcomeOf, (seq_halted_iff t).mpr h]

/-- A step that leaves `running` false ends the burst, and the fuel left is what the parameter says. -/
theorem run_succ_of_step_stops {s t : State} (n : Nat) (hrun : s.isRunning) (hstep : step s = .next t)
    (ht : t.running = false) : run (n + 1) s = .next ⟨t, fuelAfterHalt s.config n, .haltExecution⟩ := by
  have hseq : s.seq = .running := (seq_running_iff s).mpr hrun
  simp only [run, hseq, hstep, outcomeOf_of_stopped ht]

/-- Settles O39: Halt is `State.stop`; its step leaves the pc advanced and ends the burst. -/
theorem haltStopsTheRun : Obligations.HaltStopsTheRun := by
  have hdecode (w : Word) : decode w = .op .halt ↔ w = 0xC000#16 := decode_eq_op_iff w rfl
  refine ⟨hdecode, fun s => ?_, fun s n hrun hword hpc => ?_⟩
  · exact ⟨s.stop, rfl, stop_running s, stop_pc s, stop_reg s, stop_load s, stop_fault s, stop_config s⟩
  · have hstep : step s = .next (s.setPc (s.pc + 2#8)).stop :=
      step_of_stages hrun (by omega) ((hdecode _).mpr hword) (pcSeq_of_le _ hpc)
    exact run_succ_of_step_stops n hrun hstep rfl

end Sys2Proof.Machine
end

section
/-! PROOFS. The stages that fail (44_execution_cycle.md R181, R185; 60_exceptions.md R200 to R207): where each stage raises
its error, that the latched error is true of the state it is latched in, and with it the invariant that every step keeps. -/

namespace Sys2Proof.Machine

/-! ### The decoder's two rejections (30_encoding.md R78) -/

/-- The three answers of the decoder, each with the word it is of. -/
theorem decode_cases (w : Word) :
    (w = 0x0000#16 ∧ decode w = .nullInstruction) ∨ (∃ i, decode w = .op i) ∨ decode w = .invalidInstruction w := by
  by_cases hw : w = 0x0000#16
  · exact .inl ⟨hw, if_pos hw⟩
  · obtain ⟨_, _, e, -, -, -, hop⟩ | ⟨-, hinvalid⟩ := decodeIsFirstMatch w hw
    · exact .inr (.inl ⟨_, hop⟩)
    · exact .inr (.inr hinvalid)

/-- A word is rejected under its own name. -/
theorem eq_of_decode_invalidInstruction {w v : Word} (h : decode w = .invalidInstruction v) : v = w := by
  obtain ⟨-, e⟩ | ⟨i, e⟩ | e := decode_cases w
  · cases e.symm.trans h
  · cases e.symm.trans h
  · exact DecodeResult.invalidInstruction.inj (h.symm.trans e)

theorem decodeStage_of_nullInstruction {w : Word} (h : decode w = .nullInstruction) :
    decodeStage w = .error .nullInstruction := by
  rw [decodeStage, h]

theorem decodeStage_of_invalidInstruction {w v : Word} (h : decode w = .invalidInstruction v) :
    decodeStage w = .error (.invalidInstruction v) := by
  rw [decodeStage, h]

/-- The two errors of the decode stage, and the words that raise them. -/
theorem decodeStage_error {w : Word} {k : FaultKind} (h : decodeStage w = .error k) :
    (w = 0x0000#16 ∧ k = .nullInstruction) ∨ (decode w = .invalidInstruction w ∧ k = .invalidInstruction w) := by
  obtain ⟨hw, hd⟩ | ⟨i, hd⟩ | hd := decode_cases w
  · exact .inl ⟨hw, Except.error.inj (h.symm.trans (decodeStage_of_nullInstruction hd))⟩
  · cases h.symm.trans ((decodeStage_ok_iff w i).mpr hd)
  · exact .inr ⟨hd, Except.error.inj (h.symm.trans (decodeStage_of_invalidInstruction hd))⟩

/-! ### The advance (42_control.md R150) -/

/-- The advance fails at 0xFE and above, under `PC_ADVANCE_OVERFLOW = Fault` alone. -/
theorem pcSeq_error {mode : PcAdvanceOverflow} {a : Byte} {k : FaultKind} (h : pcSeq mode a = .error k) :
    0xFD < a.toNat ∧ mode = .fault ∧ k = .pcOverflow a := by
  obtain ⟨-, e⟩ | ⟨ha, hmode, e⟩ | ⟨-, -, e⟩ := pcSeq_cases mode a
  · cases e.symm.trans h
  · exact ⟨ha, hmode, Except.error.inj (h.symm.trans e)⟩
  · cases e.symm.trans h

theorem eq_0xFE_of_toNat {a : Byte} (hgt : 0xFD < a.toNat) (hle : a.toNat ≤ 0xFE) : a = 0xFE#8 := by
  bv_omega

/-- Two below the advanced pc is the instruction's address, also where the advance wrapped (log 12). -/
theorem sub_two_of_pcSeq_ok {mode : PcAdvanceOverflow} {a next : Byte} (ha : a.toNat ≤ 0xFE)
    (h : pcSeq mode a = .ok next) : next - 2#8 = a := by
  obtain ⟨-, e⟩ | ⟨-, -, e⟩ | ⟨hgt, -, e⟩ := pcSeq_cases mode a
  · obtain rfl := Except.ok.inj (e.symm.trans h)
    exact BitVec.add_sub_cancel a 2#8
  · cases e.symm.trans h
  · obtain rfl := Except.ok.inj (e.symm.trans h)
    rw [eq_0xFE_of_toNat hgt ha]
    rfl

/-- Where the advance gives an address. -/
theorem exists_pcSeq_ok {mode : PcAdvanceOverflow} {a : Byte} (h : a.toNat ≤ 0xFD ∨ (a = 0xFE#8 ∧ mode = .wrap)) :
    ∃ next, pcSeq mode a = .ok next := by
  obtain ha | ⟨rfl, rfl⟩ := h
  · exact ⟨_, pcSeq_of_le mode ha⟩
  · exact ⟨_, rfl⟩

/-! ### A step whose stages fail (44_execution_cycle.md R185, 60_exceptions.md R207) -/

theorem prepare_of_fetch_error {s : State} {k : FaultKind} (h : fetch s = .error k) : prepare s = .error k := by
  rw [prepare, h]

theorem prepare_of_decodeStage_error {s : State} {k : FaultKind} (hpc : s.pc.toNat ≤ 0xFE)
    (h : decodeStage s.wordAtPc = .error k) : prepare s = .error k := by
  have hfetch : fetch s = .ok s.wordAtPc := fetch_of_pc_le hpc
  simp only [prepare, hfetch, h]

theorem exec_bitwiseRotate_of_ge {s : State} {n : Nibble} (r : RegIdx) (hn : 8 ≤ n.toNat)
    (hmode : s.config.shiftGE8 = .fault) :
    exec (.bitwiseRotate r n) s = .next (s.fail s.instrAddr (.shiftOutOfRange n)) := by
  refine exec_bitwiseRotate_of_error ?_
  rw [hmode]
  exact shr_fault_of_ge (s.reg r) hn

/-- The erring shift takes its error at the pc that the step began with: the step's advance is undone. -/
theorem exec_bitwiseRotate_of_ge_advanced {s : State} {n : Nibble} {next : Byte} (r : RegIdx) (hpc : s.pc.toNat ≤ 0xFE)
    (hseq : pcSeq s.config.pcAdvanceOverflow s.pc = .ok next) (hn : 8 ≤ n.toNat) (hmode : s.config.shiftGE8 = .fault) :
    exec (.bitwiseRotate r n) (s.setPc next) = .next (s.fail s.pc (.shiftOutOfRange n)) := by
  have haddr : (s.setPc next).instrAddr = s.pc := sub_two_of_pcSeq_ok hpc hseq
  have hexec := exec_bitwiseRotate_of_ge (s := s.setPc next) r hn hmode
  rw [haddr] at hexec
  exact hexec

/-- Settles O41: each error is that of the first stage to fail, and `State.fail` at the pc writes the latch alone. -/
theorem fatalErrorsArePreciseAndOrdered : Obligations.FatalErrorsArePreciseAndOrdered := by
  intro s hrun
  have hstep {k : FaultKind} (h : prepare s = .error k) : step s = .next { s with fault := some k } :=
    step_of_prepare_error hrun h
  refine ⟨fun hpc => ?fetch, fun hpc hword => ?null, fun w hpc hd => ?invalid, fun i hpc hmode hd => ?advance,
    fun r n hpc hd hn hmode => ?shift⟩
  case fetch => exact hstep (prepare_of_fetch_error ((fetch_error_iff s _).mpr ⟨hpc, rfl⟩))
  case null =>
    refine hstep (prepare_of_decodeStage_error hpc (decodeStage_of_nullInstruction ?_))
    rw [hword]
    rfl
  case invalid =>
    exact ⟨eq_of_decode_invalidInstruction hd,
      hstep (prepare_of_decodeStage_error hpc (decodeStage_of_invalidInstruction hd))⟩
  case advance =>
    have hseq : pcSeq s.config.pcAdvanceOverflow s.pc = .error (.pcOverflow 0xFE#8) := by rw [hpc, hmode]; rfl
    exact hstep (prepare_of_pcSeq_error (by rw [hpc]; decide) hd hseq)
  case shift =>
    have hle : s.pc.toNat ≤ 0xFE := by
      obtain h | ⟨h, -⟩ := hpc
      · omega
      · rw [h]; decide
    obtain ⟨next, hseq⟩ := exists_pcSeq_ok hpc
    rw [step_of_stages hrun hle hd hseq]
    exact exec_bitwiseRotate_of_ge_advanced r hle hseq hn hmode

/-! ### Everything a step can do to the latch (44_execution_cycle.md R180, R185) -/

/-- A failing stage's error, latched at the pc, is true there: the stages before it passed. -/
theorem latchIsTrue_of_prepare_error {s : State} {k : FaultKind} (h : prepare s = .error k) :
    (s.fail s.pc k).latchIsTrue := by
  obtain hf | ⟨w, hf, hd⟩ | ⟨w, i, hf, hd, hseq⟩ := prepare_error h
  · obtain ⟨hpc, rfl⟩ := (fetch_error_iff s k).mp hf
    exact And.intro hpc rfl
  · obtain ⟨hpc, hword⟩ := (fetch_ok_iff s w).mp hf
    obtain ⟨rfl, rfl⟩ | ⟨hinvalid, rfl⟩ := decodeStage_error hd
    · exact And.intro hpc hword
    · exact And.intro hpc ⟨hword, hinvalid⟩
  · obtain ⟨hpc, rfl⟩ := (fetch_ok_iff s w).mp hf
    obtain ⟨hgt, hmode, rfl⟩ := pcSeq_error hseq
    exact And.intro rfl ⟨eq_0xFE_of_toNat hgt hpc, hmode, i, hd⟩

/-- A step latches an error, true of the instruction that the pc stays at, and does nothing else; or it completes the
instruction with the latch clear. -/
theorem step_fails_or_completes {s t : State} (h : step s = .next t) :
    (∃ k, t = s.fail s.pc k ∧ t.latchIsTrue)
    ∨ (t.fault = none ∧ ∃ i s', prepare s = .ok (i, s') ∧ exec i s' = .next t) := by
  obtain ⟨⟨-, hclear⟩, ⟨k, hp, rfl⟩ | ⟨i, s', hp, he⟩⟩ := step_next h
  · exact .inl ⟨k, rfl, latchIsTrue_of_prepare_error hp⟩
  · obtain ⟨w, next, hf, hd, hseq, rfl⟩ := prepare_ok hp
    obtain hkept | ⟨r, n, rfl, -, hn, hmode⟩ := exec_fault he
    · exact .inr ⟨hkept.trans hclear, i, s.setPc next, hp, he⟩
    · obtain ⟨hpc, rfl⟩ := (fetch_ok_iff s w).mp hf
      obtain rfl := Host.Outcome.next.inj ((exec_bitwiseRotate_of_ge_advanced r hpc hseq hn hmode).symm.trans he)
      exact .inl ⟨_, rfl, And.intro hpc ⟨hn, hmode, r, hd⟩⟩

/-- Halted and Faulted never both (R180): a step that latches an error is from Running and leaves `running`. -/
theorem step_fault_of_stopped {s t : State} (h : step s = .next t) (ht : t.running = false) : t.fault = none := by
  obtain ⟨k, rfl, -⟩ | ⟨hclear, -⟩ := step_fails_or_completes h
  · obtain ⟨⟨hrun, -⟩, -⟩ := step_next h
    cases hrun.symm.trans ht
  · exact hclear

/-! ### The invariant (log 5, log 10) -/

theorem exec_wf {i : Instr} {s t : State} (h : exec i s = .next t) (hwf : Memory.wf s.memory = true) :
    Memory.wf t.memory = true := by
  obtain ⟨e, -, rfl, -⟩ := effect_of_exec h
  cases e with
  | store a v => exact wf_store a v hwf
  | _ => exact hwf

/-- Settles O49: a step that fails leaves memory and latches a true error; one that completes leaves the latch clear, and its
instruction keeps memory canonical. -/
theorem everyStepKeepsTheInvariant : Obligations.EveryStepKeepsTheInvariant := by
  rintro s t ⟨hwf, -, -⟩ h
  obtain ⟨k, rfl, htrue⟩ | ⟨hclear, i, s', hp, he⟩ := step_fails_or_completes h
  · exact ⟨hwf, step_fault_of_stopped h, htrue⟩
  · obtain ⟨-, next, rfl⟩ := prepare_ok_wordAtPc hp
    exact inv_of_unlatched (exec_wf he hwf) hclear

end Sys2Proof.Machine
end

section
/-! PROOFS. The sequencer (44_execution_cycle.md R180, R181, R191): a step from Running always answers, with the decoded
instruction where no stage fails, and from no other state is one taken. -/

namespace Sys2Proof.Machine

/-! ### Running, Halted, Faulted (44_execution_cycle.md R180) -/

/-- A state that is not Halted and Faulted at once is in exactly one of the three. -/
theorem isRunning_or_isHalted_or_isFaulted {s : State} (h : s.running = false → s.fault = none) :
    s.isRunning ∨ s.isHalted ∨ ∃ k, s.isFaulted k := by
  cases hrun : s.running with
  | false => exact .inr (.inl ⟨hrun, h hrun⟩)
  | true =>
    cases hf : s.fault with
    | none => exact .inl ⟨hrun, hf⟩
    | some k => exact .inr (.inr ⟨k, hrun, hf⟩)

/-- A step from Running answers: a failing stage is taken by `State.fail`, and every instruction ends in an operation. -/
theorem exists_step_of_isRunning {s : State} (hrun : s.isRunning) : ∃ t, step s = .next t := by
  cases hp : prepare s with
  | error k => exact ⟨_, step_of_prepare_error hrun hp⟩
  | ok advanced =>
    obtain ⟨i, s'⟩ := advanced
    obtain ⟨e, -, hexec⟩ := exec_hasEffect i s'
    refine ⟨e.apply s', ?_⟩
    rw [step_running hrun, stepRunning, hp]
    exact hexec s' (.refl i s')

/-- What a step from Running can lead to. -/
theorem step_isRunning_or_isHalted_or_isFaulted {s t : State} (h : step s = .next t) :
    t.isRunning ∨ t.isHalted ∨ ∃ k, t.isFaulted k :=
  isRunning_or_isHalted_or_isFaulted (step_fault_of_stopped h)

/-- Settles O42: the step answers, and the state it leaves is not Halted and Faulted at once. -/
theorem runningAlwaysSteps : Obligations.RunningAlwaysSteps := by
  intro s hrun
  obtain ⟨t, h⟩ := exists_step_of_isRunning hrun
  exact ⟨t, h, step_isRunning_or_isHalted_or_isFaulted h⟩

/-- Settles O40: with every stage passed, the step is exec on the advanced state. -/
theorem stepRunsTheDecodedInstruction : Obligations.StepRunsTheDecodedInstruction :=
  fun _ _ _ hrun hpc hd _ hseq => step_of_stages hrun hpc hd hseq

/-- Settles O43: the sequencer's state decides, and it reads `running` first. -/
theorem stoppedContextTakesNoStep : Obligations.StoppedContextTakesNoStep := by
  refine ⟨fun s h => ?_, fun s k h => ?_⟩
  · rw [step, sequencerStep, (seq_halted_iff s).mpr h]
  · rw [step, sequencerStep, (seq_faulted_iff s k).mpr h]

/-! ### The placing of a word (20_memory.md R53, R62; log 13) -/

/-- The placed word is the word at the pc: its two bytes stand at two addresses. -/
theorem wordAtPc_placeWord {s : State} (w : Word) (hwf : Memory.wf s.memory = true) :
    (s.placeWord w).wordAtPc = w := by
  have hne : s.pc ≠ s.pc + 1#8 := by bv_omega
  have hhi : (s.placeWord w).load s.pc = hiByte w := by
    rw [State.placeWord, load_store (wf_store _ _ hwf), if_neg hne, load_store_self hwf]
  have hlo : (s.placeWord w).load (s.pc + 1#8) = loByte w := load_store_self (wf_store _ _ hwf) _ _
  rw [State.wordAtPc, placeWord_pc, hhi, hlo, wordOfBytes_hi_lo]

/-- Settles O53: the placed word is fetched, decodes to the instruction, and the advance fits. -/
theorem placedWordIsTheNextInstruction : Obligations.PlacedWordIsTheNextInstruction := by
  intro s i hrun hwf hpc hi
  have hd : decode (s.withFetchWord 16 (encode i).toNat).wordAtPc = .op i := by
    rw [State.withFetchWord, tableWord_toNat, wordAtPc_placeWord _ hwf]
    exact decodeOfEncodedIsTheInstruction i hi
  exact step_of_stages hrun (Nat.le_succ_of_le hpc) hd (pcSeq_of_le _ hpc)

end Sys2Proof.Machine
end

section
/-! PROOFS. The fuel loop (44_execution_cycle.md R189 to R193): a burst as a relation, one rule per way that the loop goes on
or ends, and by induction on it what a burst's signal, context and unused fuel are. -/

namespace Sys2Proof.Machine

/-! ### One turn of the loop (44_execution_cycle.md R189, R190) -/

theorem run_of_stopped {s : State} (n : Nat) (h : s.running = false) : run n s = .next ⟨s, n, .haltExecution⟩ := by
  have hseq : s.seq = .halted := (seq_halted_iff s).mpr h
  cases n <;> simp only [run, hseq]

theorem run_of_isFaulted {s : State} {k : FaultKind} (n : Nat) (h : s.isFaulted k) :
    run n s = .next ⟨s, n, .fatal k⟩ := by
  have hseq : s.seq = .faulted k := (seq_faulted_iff s k).mpr h
  cases n <;> simp only [run, hseq]

theorem run_zero_of_isRunning {s : State} (h : s.isRunning) : run 0 s = .next ⟨s, 0, .fuelExhausted⟩ := by
  have hseq : s.seq = .running := (seq_running_iff s).mpr h
  simp only [run, hseq]

theorem run_succ_of_step_goes_on {s t : State} (n : Nat) (hrun : s.isRunning) (hstep : step s = .next t)
    (ht : t.isRunning) : run (n + 1) s = run n t := by
  have hseq : s.seq = .running := (seq_running_iff s).mpr hrun
  have hout : outcomeOf t = .goesOn := by rw [outcomeOf, (seq_running_iff t).mpr ht]
  simp only [run, hseq, hstep, hout]

theorem run_succ_of_step_faults {s t : State} {k : FaultKind} (n : Nat) (hrun : s.isRunning) (hstep : step s = .next t)
    (ht : t.isFaulted k) : run (n + 1) s = .next ⟨t, n + 1, .fatal k⟩ := by
  have hseq : s.seq = .running := (seq_running_iff s).mpr hrun
  have hout : outcomeOf t = .faults k := by rw [outcomeOf, (seq_faulted_iff t k).mpr ht]
  simp only [run, hseq, hstep, hout]

/-- Settles O54: the loop looks at the sequencer's state before it looks at the fuel, and at the fuel before a step. -/
theorem burstOnAStoppedContextReturnsAtOnce : Obligations.BurstOnAStoppedContextReturnsAtOnce :=
  fun n _ => ⟨fun ⟨h, _⟩ => run_of_stopped n h, fun _ h => run_of_isFaulted n h, run_zero_of_isRunning⟩

/-! ### A burst as a relation (44_execution_cycle.md R189) -/

/-- The burst `b` from `s` with fuel `n`, by the ways that the loop goes on or ends. -/
inductive IsBurst : Nat → State → Burst → Prop where
  | stopped {n : Nat} {s : State} (h : s.running = false) : IsBurst n s ⟨s, n, .haltExecution⟩
  | faulted {n : Nat} {s : State} {k : FaultKind} (h : s.isFaulted k) : IsBurst n s ⟨s, n, .fatal k⟩
  | noFuel {s : State} (h : s.isRunning) : IsBurst 0 s ⟨s, 0, .fuelExhausted⟩
  | goesOn {n : Nat} {s t : State} {b : Burst} (hrun : s.isRunning) (hstep : step s = .next t) (ht : t.isRunning)
      (hrest : IsBurst n t b) : IsBurst (n + 1) s b
  | halts {n : Nat} {s t : State} (hrun : s.isRunning) (hstep : step s = .next t) (ht : t.isHalted) :
      IsBurst (n + 1) s ⟨t, fuelAfterHalt s.config n, .haltExecution⟩
  | faults {n : Nat} {s t : State} {k : FaultKind} (hrun : s.isRunning) (hstep : step s = .next t) (ht : t.isFaulted k) :
      IsBurst (n + 1) s ⟨t, n + 1, .fatal k⟩

theorem IsBurst.run_eq {n : Nat} {s : State} {b : Burst} (h : IsBurst n s b) : run n s = .next b := by
  induction h with
  | stopped h => exact run_of_stopped _ h
  | faulted h => exact run_of_isFaulted _ h
  | noFuel h => exact run_zero_of_isRunning h
  | goesOn hrun hstep ht _ ih => exact (run_succ_of_step_goes_on _ hrun hstep ht).trans ih
  | halts hrun hstep ht => exact run_succ_of_step_stops _ hrun hstep ht.1
  | faults hrun hstep ht => exact run_succ_of_step_faults _ hrun hstep ht

/-- Every burst answers: in each state of R180 the loop goes on or ends. -/
theorem exists_isBurst (n : Nat) (s : State) : ∃ b, IsBurst n s b := by
  induction n generalizing s with
  | zero =>
    cases hseq : s.seq with
    | running => exact ⟨_, .noFuel ((seq_running_iff s).mp hseq)⟩
    | halted => exact ⟨_, .stopped ((seq_halted_iff s).mp hseq)⟩
    | faulted k => exact ⟨_, .faulted ((seq_faulted_iff s k).mp hseq)⟩
  | succ n ih =>
    cases hseq : s.seq with
    | halted => exact ⟨_, .stopped ((seq_halted_iff s).mp hseq)⟩
    | faulted k => exact ⟨_, .faulted ((seq_faulted_iff s k).mp hseq)⟩
    | running =>
      have hrun : s.isRunning := (seq_running_iff s).mp hseq
      obtain ⟨t, hstep, ht | ht | ⟨k, ht⟩⟩ := runningAlwaysSteps s hrun
      · obtain ⟨b, hrest⟩ := ih t
        exact ⟨b, .goesOn hrun hstep ht hrest⟩
      · exact ⟨_, .halts hrun hstep ht⟩
      · exact ⟨_, .faults hrun hstep ht⟩

/-- The relation is the loop of the model. -/
theorem isBurst_iff {n : Nat} {s : State} {b : Burst} : IsBurst n s b ↔ run n s = .next b := by
  refine ⟨IsBurst.run_eq, fun h => ?_⟩
  obtain ⟨b', hb'⟩ := exists_isBurst n s
  obtain rfl := Host.Outcome.next.inj (hb'.run_eq.symm.trans h)
  exact hb'

/-! ### The signal and the state after (44_execution_cycle.md R192) -/

theorem fuelAfterHalt_add (c : Config) (n m : Nat) : fuelAfterHalt c (n + m) = fuelAfterHalt c n + m := by
  unfold fuelAfterHalt
  split <;> omega

/-- Halt takes one unit or none, as the parameter says (R190). -/
theorem fuelAfterHalt_add_cost (c : Config) (n : Nat) :
    fuelAfterHalt c n + (if c.haltConsumesFuel = true then 1 else 0) = n + 1 := by
  unfold fuelAfterHalt
  split <;> rfl

theorem IsBurst.unused_le {n : Nat} {s : State} {b : Burst} (h : IsBurst n s b) : b.unused ≤ n := by
  induction h with
  | stopped | faulted | noFuel | faults => exact le_refl _
  | goesOn _ _ _ _ ih => exact Nat.le_succ_of_le ih
  | @halts n s => exact Nat.le.intro (fuelAfterHalt_add_cost s.config n)

/-- Settles O55: each way that the loop ends is one row of the table, and where it goes on the rest of the burst is. -/
theorem terminalSignalSaysTheStateAfter : Obligations.TerminalSignalSaysTheStateAfter := by
  intro n s hs
  obtain ⟨b, h⟩ := exists_isBurst n s
  refine ⟨b, h.run_eq, h.unused_le, ?_⟩
  induction h with
  | stopped h => exact .inr (.inl ⟨rfl, h, hs h⟩)
  | faulted h => exact .inr (.inr ⟨_, rfl, h⟩)
  | noFuel h => exact .inl ⟨rfl, rfl, h⟩
  | goesOn _ _ ht _ ih => exact ih fun _ => ht.2
  | halts _ _ ht => exact .inr (.inl ⟨rfl, ht⟩)
  | faults _ _ ht => exact .inr (.inr ⟨_, rfl, ht⟩)

/-! ### The burst as the iterated step (44_execution_cycle.md R189, R190) -/

/-- The iterated step takes one step first. -/
theorem core_run_succ {s t : State} (k : Nat) (h : step s = .next t) :
    Sys2Proof.core.run (k + 1) s = Sys2Proof.core.run k t := by
  have hstep : Sys2Proof.core.step s = .next t := h
  simp only [Host.Core.run, hstep]

/-- Settles O56: by induction on the burst; one that goes on is a step before the steps of the rest, for one unit. -/
theorem burstIsTheIteratedStep : Obligations.BurstIsTheIteratedStep := by
  intro n s b hs h
  replace h := isBurst_iff.mpr h
  induction h with
  | stopped h => cases hs.1.symm.trans h
  | faulted h => cases hs.2.symm.trans h.2
  | noFuel => exact ⟨fun _ => rfl, nofun, nofun⟩
  | @goesOn n s t b _ hstep ht _ ih =>
    obtain ⟨hfuel, hhalt, hfatal⟩ := ih ht
    rw [parametersNeverChange s t hstep] at hhalt
    refine ⟨fun hb => (core_run_succ n hstep).trans (hfuel hb), fun hb => ?_, fun f hb => ?_⟩
    · obtain ⟨k, hk, hn⟩ := hhalt hb
      exact ⟨k + 1, (core_run_succ (k + 1) hstep).trans hk, by omega⟩
    · obtain ⟨k, hk, hn⟩ := hfatal f hb
      exact ⟨k + 1, (core_run_succ (k + 1) hstep).trans hk, by omega⟩
  | @halts n s t _ hstep =>
    exact ⟨nofun, fun _ => ⟨0, core_run_succ 0 hstep, (fuelAfterHalt_add_cost s.config n).symm⟩, nofun⟩
  | faults _ hstep => exact ⟨nofun, nofun, fun _ _ => ⟨0, core_run_succ 0 hstep, rfl⟩⟩

/-! ### Bursts one after another (44_execution_cycle.md R193) -/

/-- A burst that runs out of fuel leaves none, and with `m` units more it goes on as a burst of `m` from where it paused. -/
theorem IsBurst.add_of_fuelExhausted {n : Nat} {s : State} {b : Burst} (h : IsBurst n s b)
    (hb : b.signal = .fuelExhausted) (m : Nat) : b.unused = 0 ∧ run (n + m) s = run m b.context := by
  induction h with
  | noFuel => exact ⟨rfl, by rw [Nat.zero_add]⟩
  | @goesOn n s t b hrun hstep ht _ ih =>
    obtain ⟨hzero, hrest⟩ := ih hb
    refine ⟨hzero, ?_⟩
    rw [Nat.succ_add, run_succ_of_step_goes_on _ hrun hstep ht, hrest]
  | stopped | faulted | halts | faults => cases hb

/-- A burst that ends otherwise ends alike with `m` units more, and leaves them unused. -/
theorem IsBurst.add_of_ne_fuelExhausted {n : Nat} {s : State} {b : Burst} (h : IsBurst n s b)
    (hb : b.signal ≠ .fuelExhausted) (m : Nat) : IsBurst (n + m) s ⟨b.context, b.unused + m, b.signal⟩ := by
  induction h with
  | stopped h => exact .stopped h
  | faulted h => exact .faulted h
  | noFuel => exact absurd rfl hb
  | goesOn hrun hstep ht _ ih =>
    rw [Nat.succ_add]
    exact .goesOn hrun hstep ht (ih hb)
  | @halts n s t hrun hstep ht =>
    rw [Nat.succ_add, ← fuelAfterHalt_add]
    exact .halts hrun hstep ht
  | faults hrun hstep ht =>
    rw [Nat.succ_add]
    exact .faults hrun hstep ht

theorem runBursts_nil {s : State} {b : Burst} (h : run 0 s = .next b) :
    runBursts [] s = .next ⟨b.context, 0, b.signal⟩ := by
  rw [runBursts, h]

theorem runBursts_cons_of_ne_fuelExhausted {given : Nat} {s : State} {b : Burst} (later : List Nat)
    (h : run given s = .next b) (hb : b.signal ≠ .fuelExhausted) :
    runBursts (given :: later) s = .next ⟨b.context, given - b.unused, b.signal⟩ := by
  simp only [runBursts, h, if_neg hb]

theorem runBursts_cons_of_fuelExhausted {given : Nat} {later : List Nat} {s : State} {b : Burst} {r : HostReport}
    (h : run given s = .next b) (hb : b.signal = .fuelExhausted) (hlater : runBursts later b.context = .next r) :
    runBursts (given :: later) s = .next ⟨r.context, (given - b.unused) + r.cycles, r.signal⟩ := by
  simp only [runBursts, h, if_pos hb, hlater]

/-- Settles O59: by induction on the budgets; the first burst pauses where the single burst goes on, or ends where it ends. -/
theorem burstSizesDoNotMatter : Obligations.BurstSizesDoNotMatter := by
  intro budgets
  induction budgets with
  | nil =>
    intro s b h
    rw [runBursts_nil h, List.sum_nil, Nat.zero_sub]
  | cons given later ih =>
    intro s b h
    rw [List.sum_cons] at h ⊢
    obtain ⟨first, hfirst⟩ := exists_isBurst given s
    by_cases hsig : first.signal = .fuelExhausted
    · obtain ⟨hzero, hrest⟩ := hfirst.add_of_fuelExhausted hsig later.sum
      rw [hrest] at h
      have hle : b.unused ≤ later.sum := (isBurst_iff.mpr h).unused_le
      have hcycles : given - first.unused + (later.sum - b.unused) = given + later.sum - b.unused := by omega
      rw [runBursts_cons_of_fuelExhausted hfirst.run_eq hsig (ih _ _ h), hcycles]
    · obtain rfl := Host.Outcome.next.inj ((hfirst.add_of_ne_fuelExhausted hsig later.sum).run_eq.symm.trans h)
      rw [runBursts_cons_of_ne_fuelExhausted later hfirst.run_eq hsig, Nat.add_sub_add_right]

end Sys2Proof.Machine
end

section
/-! PROOFS. The cause of the fatal error that a burst ends in (60_exceptions.md R203 to R205): the latch of its last step is
true of the state it leaves, and the parameters there are those the burst began with. -/

namespace Sys2Proof.Machine

/-! ### What a true latch says of its cause -/

theorem cause_of_shiftOutOfRange {s : State} {n : Nibble} (htrue : s.latchIsTrue)
    (hf : s.fault = some (.shiftOutOfRange n)) : s.config.shiftGE8 = .fault ∧ 8 ≤ n.toNat := by
  rw [State.latchIsTrue, hf] at htrue
  obtain ⟨-, hn, hmode, -⟩ := htrue
  exact ⟨hmode, hn⟩

theorem cause_of_pcOverflow {s : State} {a : Byte} (htrue : s.latchIsTrue) (hf : s.fault = some (.pcOverflow a)) :
    s.config.pcAdvanceOverflow = .fault ∧ a = 0xFE#8 := by
  rw [State.latchIsTrue, hf] at htrue
  obtain ⟨-, ha, hmode, -⟩ := htrue
  exact ⟨hmode, ha⟩

theorem cause_of_fetchOutOfRange {s : State} {a : Byte} (htrue : s.latchIsTrue)
    (hf : s.fault = some (.fetchOutOfRange a)) : a = 0xFF#8 := by
  rw [State.latchIsTrue, hf] at htrue
  exact htrue.2

/-! ### The latch and the parameters through a burst -/

theorem IsBurst.config_eq {n : Nat} {s : State} {b : Burst} (h : IsBurst n s b) : b.context.config = s.config := by
  induction h with
  | stopped | faulted | noFuel => rfl
  | goesOn _ hstep _ _ ih => exact ih.trans (parametersNeverChange _ _ hstep)
  | halts _ hstep | faults _ hstep => exact parametersNeverChange _ _ hstep

/-- From a clear latch, the error that a burst ends in is one that its own last step latched, so it is true. -/
theorem IsBurst.latchIsTrue_of_fatal {n : Nat} {s : State} {b : Burst} {k : FaultKind} (h : IsBurst n s b)
    (hs : s.fault = none) (hb : b.signal = .fatal k) : b.context.fault = some k ∧ b.context.latchIsTrue := by
  induction h with
  | stopped | noFuel | halts => cases hb
  | faulted h => cases hs.symm.trans h.2
  | goesOn _ _ ht _ ih => exact ih ht.2 hb
  | faults _ hstep ht =>
    obtain rfl := TerminalSignal.fatal.inj hb
    obtain ⟨_, -, htrue⟩ | ⟨hclear, -⟩ := step_fails_or_completes hstep
    · exact ⟨ht.2, htrue⟩
    · cases hclear.symm.trans ht.2

/-- Settles O57: the latch that a burst ends with is true, of the parameters that the burst began with. -/
theorem fatalErrorsNeedTheirCause : Obligations.FatalErrorsNeedTheirCause := by
  intro n s b hs h
  have hburst : IsBurst n s b := isBurst_iff.mpr h
  rw [← hburst.config_eq]
  refine ⟨fun k hb => ?shift, fun a hb => ?advance, fun a hb => ?fetch⟩ <;>
    obtain ⟨hf, htrue⟩ := hburst.latchIsTrue_of_fatal hs hb
  case shift => exact cause_of_shiftOutOfRange htrue hf
  case advance => exact cause_of_pcOverflow htrue hf
  case fetch => exact cause_of_fetchOutOfRange htrue hf

end Sys2Proof.Machine
end

section
/-! PROOFS. Reset, and the safety of a burst with less fuel (70_reset_and_hazards.md R220, R226): what each part of the
context holds at reset, and a fatal end as one that more fuel does not undo. -/

namespace Sys2Proof.Machine

/-! ### The parts of the context at reset (70_reset_and_hazards.md R220) -/

@[simp] theorem resetWith_pc (c : Config) (m : Memory) : (State.resetWith c m).pc = 0x00#8 := rfl

@[simp] theorem resetWith_reg (c : Config) (m : Memory) (q : RegIdx) : (State.resetWith c m).reg q = 0x00#8 :=
  Vector.getElem_replicate q.isLt

@[simp] theorem resetWith_load (c : Config) (m : Memory) (a : Byte) :
    (State.resetWith c m).load a = Memory.read m a := rfl

@[simp] theorem resetWith_running (c : Config) (m : Memory) : (State.resetWith c m).running = true := rfl

@[simp] theorem resetWith_fault (c : Config) (m : Memory) : (State.resetWith c m).fault = none := rfl

/-- Settles O51: part by part; only the registers are not read off the record, since each is an entry of one vector. -/
theorem resetLeavesTheStatedValues : Obligations.ResetLeavesTheStatedValues :=
  fun c m => ⟨resetWith_pc c m, resetWith_reg c m, resetWith_load c m, resetWith_running c m, resetWith_fault c m⟩

/-! ### A safe burst with less fuel (70_reset_and_hazards.md R226) -/

/-- Each state and fuel have one burst, so safety is about its signal. -/
theorem IsBurst.safeFor_iff {n : Nat} {s : State} {b : Burst} (h : IsBurst n s b) :
    s.safeFor n ↔ ∀ k : FaultKind, b.signal ≠ .fatal k := by
  refine ⟨fun ⟨b', hb', hsafe⟩ => ?_, fun hsafe => ⟨b, h.run_eq, hsafe⟩⟩
  obtain rfl := Host.Outcome.next.inj (h.run_eq.symm.trans hb')
  exact hsafe

/-- A fatal error stays one with more fuel: fuel that is left over buys no step after it. -/
theorem IsBurst.not_safeFor_of_fatal {m n : Nat} {s : State} {b : Burst} {k : FaultKind} (h : IsBurst m s b)
    (hb : b.signal = .fatal k) (hmn : m ≤ n) : ¬ s.safeFor n := by
  obtain ⟨d, rfl⟩ := Nat.exists_eq_add_of_le hmn
  have hne : b.signal ≠ .fuelExhausted := by rw [hb]; exact nofun
  have hmore : IsBurst (m + d) s ⟨b.context, b.unused + d, b.signal⟩ := h.add_of_ne_fuelExhausted hne d
  exact fun hsafe => hmore.safeFor_iff.mp hsafe k hb

/-- Settles O58: a fatal end of the burst with less fuel would also end the burst with more. -/
theorem saferWithLessFuel : Obligations.SaferWithLessFuel := by
  intro m n s hmn hsafe
  obtain ⟨b, h⟩ := exists_isBurst m s
  exact h.safeFor_iff.mpr fun _ hb => h.not_safeFor_of_fatal hb hmn hsafe

end Sys2Proof.Machine
end
